-- ==== Sys2Proof/Word.lean ====
section
/-!
DEFINITION. The widths of SDRD-FHC (spec/00_scope.md R130 section 5.1, spec/10_state.md R11, R14): every quantity is an
unsigned integer of a stated width, and a byte sequence is a list of bytes, lowest address first.
-/
namespace Sys2Proof

/-- A byte is 8 bits (R130). -/
abbrev Byte := BitVec 8

/-- A byte sequence, lowest address first (R130 section 5.2). -/
abbrev Bytes := List Byte

/-- A nibble: `bytesPerComponent` and `codec` (R43, R51). -/
abbrev U4 := BitVec 4

abbrev U8 := BitVec 8
abbrev U16 := BitVec 16
abbrev U32 := BitVec 32
abbrev U64 := BitVec 64

/-- `next_offset`, a byte offset in BUF, 37 bits wide (R14). -/
abbrev Offset := BitVec 37

end Sys2Proof
end

