-- ==== Sys2Proof/Syntax.lean ====
section
/-!
DEFINITION. What is presented to the block: header records (R11, R41), the operands of the six operations (R51), the rows
of spec/opcode_table.json as the constructors of Instr, and the forms in which they reach the block (R5, R50, R113).
-/
namespace Sys2Proof

/-- The eleven header fields before the checksum, in the order of R11. They are HDRPACK's operands (R60). -/
structure HeaderBody where
  centerFrequency    : U64
  sampleRate         : U32
  sampleEncoding     : U8
  sampleBits         : U8
  datagramSize       : U16
  frameSampleCount   : U32
  blockCount         : U16
  remainderSamples   : U16
  completeBlockCount : U16
  captureSeconds     : U32
  captureMicros      : U32
deriving DecidableEq, Repr, Inhabited

/-- A header record: the twelve fields of R11. -/
structure Header extends HeaderBody where
  checksum : U64
deriving DecidableEq, Repr, Inhabited

/-- The operands of EMIT (R51, R68): `N`, the batch, and eight scalars. -/
structure EmitRequest where
  count             : U32
  samples           : Bytes
  frequency         : U64
  sampleRate        : U32
  bytesPerComponent : U4
  bitsPerComponent  : U8
  datagramSize      : U16
  codec             : U4
  tsSec             : U32
  tsUsec            : U32
deriving DecidableEq, Repr, Inhabited

/-- One constructor per row of spec/opcode_table.json: four wire formats, six operations, two reserved selects. -/
inductive Instr where
  /-- Format H: a 42-byte header record (R41). -/
  | h (record : Bytes)
  /-- Format HD: a header datagram (R44). -/
  | hd (dg : Bytes)
  /-- Format PD: a payload datagram where a full block is due (R46). -/
  | pd (dg : Bytes)
  /-- Format PR: a payload datagram where the remainder block is due (R48). -/
  | pr (dg : Bytes)
  /-- `op` = 000 (R56). -/
  | cksum (len : U16) (data : Bytes)
  /-- `op` = 001 (R60). -/
  | hdrpack (fields : HeaderBody)
  /-- `op` = 010 (R61). -/
  | hdrunpack (record : Bytes)
  /-- `op` = 011 (R62). -/
  | classify (record : Bytes)
  /-- `op` = 100 (R68). -/
  | emit (req : EmitRequest)
  /-- `op` = 101 (R78). -/
  | accept (len : U16) (dg : Bytes)
  /-- `op` = 110, reserved (R52). -/
  | reserved6
  /-- `op` = 111, reserved (R52). -/
  | reserved7
deriving DecidableEq, Repr

/-- What is presented to the block between two states, as bytes. DESIGN CHOICE, safe: how a port carries operands is left
to the platform (R51); notes/assumptions/8.md. -/
inductive Transaction where
  /-- A transaction on the command port: a byte with `op` in bits 2:0, then the operands (R50, R51). -/
  | command (bytes : Bytes)
  /-- A bare record on the codec's record interface (R41; notes/assumptions/9.md). -/
  | record (bytes : Bytes)
  /-- A datagram that the transport-receive interface delivers to `accept` (R5). -/
  | datagram (bytes : Bytes)
deriving DecidableEq, Repr

/-- An input of the block: the reset input, or a transaction (R113, R119: one at a time, never overlapping). -/
inductive PortEvent where
  | rst
  | run (t : Transaction)
deriving DecidableEq, Repr

end Sys2Proof
end

