-- ==== Sys2Proof/Config.lean ====
section
/-!
DEFINITION. The implementation parameters of R8, and the values the spec leaves open (R22, R113). A parameter is plain data,
so that State can hold it as the read-only register R18 lists; a checksum function is a name here, and the function itself
is either CK_ref (R57, Machine/Crc.lean) or one that nothing is known of.
-/
namespace Sys2Proof

/-- Which function CK is (R55, D5): CK_ref of R57, or the k-th member of a family of unknown functions. DESIGN CHOICE,
safe: notes/assumptions/1.md. -/
inductive CkFn where
  | reference
  | abstract (k : Nat)
deriving DecidableEq, Repr

/-- Which function a codec transform is (R8, D12): a finite table of datagrams and their images, or the k-th member of a
family of unknown functions. DESIGN CHOICE, safe: notes/assumptions/3.md. -/
inductive CodecFn where
  | table (graph : List (Bytes × Bytes))
  | abstract (k : Nat)
deriving DecidableEq, Repr

/-- One nibble for which a codec transform is defined, with its transform (R8). -/
structure CodecEntry where
  nibble    : U4
  transform : CodecFn
deriving DecidableEq, Repr

/-- The parameters of R8. `codecInv` and `codecFwd` are empty by default (D12). -/
structure Params where
  dsRx     : U16
  bufBytes : Nat
  ck       : CkFn
  codecInv : List CodecEntry
  codecFwd : List CodecEntry
deriving DecidableEq, Repr

/-- The legal parameter values of R8, R9 and R18: 42 <= DS_RX (<= 65535 by its width), BUF_BYTES >= 1. -/
def Params.legal (p : Params) : Bool :=
  decide (42 ≤ p.dsRx.toNat) && decide (1 ≤ p.bufBytes)

/-- The block's identity string (R3, D1). -/
def Config.isaString : String := "SDRD-FHC/1"

/-- The checksum functions other than CK_ref: total, pure, a function of the bytes and their order alone, and nothing else
is known of them (R55). Open value: notes/assumptions/1.md. -/
opaque Config.ck : Nat → Bytes → U64

/-- The inverse transforms other than tables: a datagram may have no result (R88), and nothing else is known of them (R8).
Open value: notes/assumptions/3.md. -/
opaque Config.codecInv : Nat → Bytes → Option Bytes

/-- The forward transforms other than tables (R8, R76). Open value: notes/assumptions/3.md. -/
opaque Config.codecFwd : Nat → Bytes → Bytes

/-- What `hdr` holds after the n-th `rst`: unspecified (R22, R113). Free value: notes/assumptions/6.md. -/
opaque Config.freeHeader : Nat → Header

/-- What `blocks_remaining` holds after the n-th `rst` (R22, R113). Free value: notes/assumptions/6.md. -/
opaque Config.freeBlocks : Nat → U16

/-- What `next_offset` holds after the n-th `rst` (R22, R113). Free value: notes/assumptions/6.md. -/
opaque Config.freeOffset : Nat → Offset

/-- What BUF holds after the n-th `rst` (R22, R113), as writes into a cleared BUF. Free value: notes/assumptions/6.md. -/
opaque Config.freeBuf : Nat → List (Nat × Byte)

end Sys2Proof
end

