-- ==== Sys2Proof/Machine/Bytes.lean ====
section
/-!
DEFINITION. Byte sequences and little-endian numbers: the notation of R130 section 5.2 and the byte order of R28 and R42.
-/
namespace Sys2Proof

/-- `le_N(b)` as a natural number: the sum of `b[i] * 256^i` (R130). -/
def leNat : Bytes → Nat
  | [] => 0
  | b :: bs => b.toNat + 256 * leNat bs

/-- The `n` low bytes of a number, least significant first (R130). -/
def toLeNat : Nat → Nat → Bytes
  | 0, _ => []
  | n + 1, v => BitVec.ofNat 8 v :: toLeNat n (v / 256)

/-- `le_w(b)` at width `w` (R42): nothing sign-extended, scaled or shifted. -/
def le (w : Nat) (bs : Bytes) : BitVec w := BitVec.ofNat w (leNat bs)

/-- `to_le_w(v)` as `n` bytes (R42). -/
def toLe (n : Nat) {w : Nat} (v : BitVec w) : Bytes := toLeNat n v.toNat

/-- `b[i .. j)` (R130). -/
def slice (b : Bytes) (i j : Nat) : Bytes := (b.drop i).take (j - i)

/-- `zeros(n)` (R130). -/
def zeros (n : Nat) : Bytes := List.replicate n 0

/-- A byte sequence brought to length `n`: cut, or filled with zeros. A sequence of length `n` is unchanged. Codec
transforms preserve length (R8), and this is how the model makes every parameter value do so. -/
def resize (n : Nat) (b : Bytes) : Bytes := b.take n ++ zeros (n - b.length)

end Sys2Proof
end

