-- ==== Sys2Proof/Machine/Crc.lean ====
section
/-!
DEFINITION. The checksum primitive: the reference instance CK_ref bit by bit (R57), and the function a parameter value
names (R55).
-/
namespace Sys2Proof

/-- The reflected polynomial of CK_ref (R57). -/
def crcPoly : U64 := 0x95AC9329AC4BC9B5#64

/-- One of the eight inner steps of R57. -/
def crcBit (crc : U64) : U64 :=
  if crc.getLsbD 0 then (crc >>> 1) ^^^ crcPoly else crc >>> 1

/-- The eight inner steps. -/
def crcBits : Nat → U64 → U64
  | 0, crc => crc
  | n + 1, crc => crcBits n (crcBit crc)

/-- One byte of the message: exclusive-or it in, then eight steps (R57). -/
def crcByte (crc : U64) (b : Byte) : U64 := crcBits 8 (crc ^^^ b.zeroExtend 64)

/-- `CK_ref` (R57): initial value 0, no final inversion. -/
def ckRef (data : Bytes) : U64 := data.foldl crcByte 0

/-- The table of the table-driven form: the inner eight steps applied to `zext_64(j)` (R57). -/
def crcTable (j : Byte) : U64 := crcBits 8 (j.zeroExtend 64)

/-- `CK` of the byte sequence, for the function the parameter names (R55). -/
def CkFn.run : CkFn → Bytes → U64
  | .reference, data => ckRef data
  | .abstract k, data => Config.ck k data

end Sys2Proof
end

