-- ==== Sys2Proof/Machine/HeaderRecord.lean ====
section
/-!
DEFINITION. The 42-byte header record: its layout (R41, R42), pack and unpack (R60, R61), and the comparator that is the
block's entire wire decoder (R49, R62).
-/
namespace Sys2Proof

/-- The length of a header record (R41). -/
def recordBytes : Nat := 42

/-- The length of the checksummed span (R45). -/
def spanBytes : Nat := 34

/-- The 34 bytes of the fields before the checksum (R41, R60). -/
def packBody (v : HeaderBody) : Bytes :=
  toLe 8 v.centerFrequency ++ toLe 4 v.sampleRate ++ toLe 1 v.sampleEncoding ++ toLe 1 v.sampleBits ++
  toLe 2 v.datagramSize ++ toLe 4 v.frameSampleCount ++ toLe 2 v.blockCount ++ toLe 2 v.remainderSamples ++
  toLe 2 v.completeBlockCount ++ toLe 4 v.captureSeconds ++ toLe 4 v.captureMicros

/-- `rec` of HDRPACK (R60): the body and its checksum. -/
def packRecord (ck : Bytes → U64) (v : HeaderBody) : Bytes :=
  packBody v ++ toLe 8 (ck (packBody v))

/-- The eleven fields before the checksum, at the offsets of R41. -/
def unpackBody (r : Bytes) : HeaderBody where
  centerFrequency    := le 64 (slice r 0 8)
  sampleRate         := le 32 (slice r 8 12)
  sampleEncoding     := le 8 (slice r 12 13)
  sampleBits         := le 8 (slice r 13 14)
  datagramSize       := le 16 (slice r 14 16)
  frameSampleCount   := le 32 (slice r 16 20)
  blockCount         := le 16 (slice r 20 22)
  remainderSamples   := le 16 (slice r 22 24)
  completeBlockCount := le 16 (slice r 24 26)
  captureSeconds     := le 32 (slice r 26 30)
  captureMicros      := le 32 (slice r 30 34)

/-- HDRUNPACK (R61): the twelve fields; the checksum is the stored field, not a recomputed one. -/
def unpackRecord (r : Bytes) : Header where
  toHeaderBody := unpackBody r
  checksum     := le 64 (slice r 34 42)

/-- The comparison of R49, R62 and R81: `CK(d[0 .. 34)) == le_64(d[34 .. 42))`. -/
def isHeaderBytes (ck : Bytes → U64) (d : Bytes) : Bool :=
  ck (slice d 0 34) == le 64 (slice d 34 42)

end Sys2Proof
end

