-- ==== Sys2Proof/WellFormed.lean ====
section
/-!
DEFINITION. Which terms of Instr are instructions: the operand lengths of R51, and the sizes and predicates of the four
wire formats (R41, R44, R46, R48, R49). Given the checksum function, the check is decidable.
-/
namespace Sys2Proof

/-- A datagram size the header can say and the record fits (R9). -/
def sizeOk (d : Bytes) : Bool := decide (recordBytes ≤ d.length) && decide (d.length ≤ 65535)

/-- The number of sample bytes EMIT's operands promise: `N * 2 * bytesPerComponent` (R51, R68). -/
def EmitRequest.sampleBytes (q : EmitRequest) : Nat := q.count.toNat * 2 * q.bytesPerComponent.toNat

/-- Well-formedness of an instruction, for the checksum function `ck` (only HD, PD and PR use it). -/
def Instr.wellFormed (ck : Bytes → U64) : Instr → Bool
  | .h record        => decide (record.length = recordBytes)
  | .hd dg           => sizeOk dg && isHeaderBytes ck dg
  | .pd dg           => sizeOk dg && !isHeaderBytes ck dg
  | .pr dg           => sizeOk dg && !isHeaderBytes ck dg
  | .cksum len data  => decide (data.length = len.toNat)
  | .hdrpack _       => true
  | .hdrunpack record => decide (record.length = recordBytes)
  | .classify record => decide (record.length = recordBytes)
  | .emit q          => decide (q.samples.length = q.sampleBytes)
  | .accept len dg   => decide (dg.length = len.toNat)
  | .reserved6       => true
  | .reserved7       => true

end Sys2Proof
end

