-- ==== Sys2Proof/Decode.lean ====
section
/-!
DEFINITION. From what a port presents to an instruction, and back. A command is a byte with the operation select of R50 in
bits 2:0, then the operands of R51 in its order, each scalar little-endian in whole bytes, byte sequences last
(DESIGN CHOICE, safe: notes/assumptions/8.md). A datagram of DS_RX bytes is told apart by the comparison of R49 alone.
Decoding is total and rejects by name.
-/
namespace Sys2Proof

/-- Why bytes on a port are no transaction. None of these is an encoding of the block: the caller has not presented the
operands R51 lists. Safe: the machine stops. -/
inductive DecodeError where
  /-- A command without its select byte. -/
  | noSelect
  /-- A select byte with a bit set above the three bits of `op`. -/
  | selectTooWide
  /-- Fewer operand bytes than the operation takes. -/
  | truncated
  /-- A u4 operand of EMIT with a bit set above its four bits. -/
  | nibbleTooWide
  /-- A record that has not 42 bytes. -/
  | recordSize
  /-- A datagram longer than the u16 `len` operand of ACCEPT can say. -/
  | datagramTooLong
deriving DecidableEq, Repr

/-- `len` u16, then `len` bytes: the operands of CKSUM and ACCEPT (R51). -/
def decodeCounted (bs : Bytes) : Except DecodeError (U16 × Bytes) :=
  let len := le 16 (slice bs 0 2)
  if bs.length < 2 + len.toNat then .error .truncated else .ok (len, slice bs 2 (2 + len.toNat))

/-- Eleven scalars, 34 bytes, in the order and at the widths of R51 (which are the record's). -/
def decodeHdrpack (bs : Bytes) : Except DecodeError HeaderBody :=
  if bs.length < spanBytes then .error .truncated else .ok (unpackBody bs)

/-- The 42 bytes of HDRUNPACK and CLASSIFY (R51). -/
def decodeRecord (bs : Bytes) : Except DecodeError Bytes :=
  if bs.length < recordBytes then .error .truncated else .ok (slice bs 0 42)

/-- The number of bytes EMIT's nine scalars take on the port. -/
def emitScalarBytes : Nat := 29

/-- EMIT's operands (R51): `N`, `frequency`, `sampleRate`, `bytesPerComponent`, `bitsPerComponent`, `datagramSize`,
`codec`, `ts_sec`, `ts_usec`, then the samples. -/
def decodeEmit (bs : Bytes) : Except DecodeError EmitRequest :=
  if bs.length < emitScalarBytes then .error .truncated
  else
    let count := le 32 (slice bs 0 4)
    let bpc := le 8 (slice bs 16 17)
    let codec := le 8 (slice bs 20 21)
    let n := count.toNat * 2 * bpc.toNat
    if 16 ≤ bpc.toNat || 16 ≤ codec.toNat then .error .nibbleTooWide
    else if bs.length < emitScalarBytes + n then .error .truncated
    else .ok
      { count             := count
        samples           := slice bs emitScalarBytes (emitScalarBytes + n)
        frequency         := le 64 (slice bs 4 12)
        sampleRate        := le 32 (slice bs 12 16)
        bytesPerComponent := bpc.truncate 4
        bitsPerComponent  := le 8 (slice bs 17 18)
        datagramSize      := le 16 (slice bs 18 20)
        codec             := codec.truncate 4
        tsSec             := le 32 (slice bs 21 25)
        tsUsec            := le 32 (slice bs 25 29) }

/-- A transaction on the command port (R50, R51, R52). Bytes past the operands are not read. -/
def decodeCommand : Bytes → Except DecodeError Instr
  | [] => .error .noSelect
  | op :: bs =>
    match op.toNat with
    | 0 => (decodeCounted bs).map fun p => .cksum p.1 p.2
    | 1 => (decodeHdrpack bs).map .hdrpack
    | 2 => (decodeRecord bs).map .hdrunpack
    | 3 => (decodeRecord bs).map .classify
    | 4 => (decodeEmit bs).map .emit
    | 5 => (decodeCounted bs).map fun p => .accept p.1 p.2
    | 6 => .ok .reserved6
    | 7 => .ok .reserved7
    | _ => .error .selectTooWide

/-- A datagram that the transport delivers to `accept` (R5, R49): of DS_RX bytes, it is HD exactly when it passes the
comparison, and otherwise PD or PR, which the receiver knows by counting only (R48; `remainderDue`). One of another size is
in none of the formats and goes to ACCEPT, which drops it (R80). -/
def decodeDatagram (ck : Bytes → U64) (dsRx : U16) (remainderDue : Bool) (d : Bytes) : Except DecodeError Instr :=
  if 65535 < d.length then .error .datagramTooLong
  else if d.length ≠ dsRx.toNat then .ok (.accept (BitVec.ofNat 16 d.length) d)
  else if isHeaderBytes ck d then .ok (.hd d)
  else if remainderDue then .ok (.pr d)
  else .ok (.pd d)

/-- The instruction a transaction presents. -/
def decode (ck : Bytes → U64) (dsRx : U16) (remainderDue : Bool) : Transaction → Except DecodeError Instr
  | .command bs  => decodeCommand bs
  | .record bs   => if bs.length = recordBytes then .ok (.h bs) else .error .recordSize
  | .datagram bs => decodeDatagram ck dsRx remainderDue bs

/-- The operation select of R50 (none for a wire format). -/
def Instr.select : Instr → Option Nat
  | .h _ => none
  | .hd _ => none
  | .pd _ => none
  | .pr _ => none
  | .cksum _ _ => some 0
  | .hdrpack _ => some 1
  | .hdrunpack _ => some 2
  | .classify _ => some 3
  | .emit _ => some 4
  | .accept _ _ => some 5
  | .reserved6 => some 6
  | .reserved7 => some 7

/-- EMIT's operands as the port carries them. -/
def encodeEmit (q : EmitRequest) : Bytes :=
  toLe 4 q.count ++ toLe 8 q.frequency ++ toLe 4 q.sampleRate ++ toLe 1 q.bytesPerComponent ++
  toLe 1 q.bitsPerComponent ++ toLe 2 q.datagramSize ++ toLe 1 q.codec ++ toLe 4 q.tsSec ++ toLe 4 q.tsUsec ++ q.samples

/-- The transaction that presents an instruction. -/
def encode : Instr → Transaction
  | .h record         => .record record
  | .hd dg            => .datagram dg
  | .pd dg            => .datagram dg
  | .pr dg            => .datagram dg
  | .cksum len data   => .command (0#8 :: (toLe 2 len ++ data))
  | .hdrpack v        => .command (1#8 :: packBody v)
  | .hdrunpack record => .command (2#8 :: record)
  | .classify record  => .command (3#8 :: record)
  | .emit q           => .command (4#8 :: encodeEmit q)
  | .accept len dg    => .command (5#8 :: (toLe 2 len ++ dg))
  | .reserved6        => .command [6#8]
  | .reserved7        => .command [7#8]

/-- The transaction whose bits are `w`, numbered as the opcode table numbers them: `nbits` of 42 bytes is a record, more is
a datagram, and fewer is the select byte of a command, followed by operand bytes of zeros (as many as the longest fixed
operand list takes). -/
def tableTransaction (nbits w : Nat) : Transaction :=
  if nbits = 8 * recordBytes then .record (toLeNat recordBytes w)
  else if 8 * recordBytes < nbits then .datagram (toLeNat (nbits / 8) w)
  else .command (toLeNat ((nbits + 7) / 8) w ++ zeros recordBytes)

/-- The instruction the decoder reads from `w`; a datagram is read as a receiver of its own size with CK_ref reads it. -/
def decodeTableWord (nbits w : Nat) : Option Instr :=
  match decode ckRef (BitVec.ofNat 16 (nbits / 8)) false (tableTransaction nbits w) with
  | .ok i => some i
  | .error _ => none

end Sys2Proof
end

