-- ==== Sys2Proof/Machine/State.lean ====
section
/-!
DEFINITION. The state of the block (R10, R18), the outputs of its last transaction (R17), what is on its ports, the reasons
a step can stop, and the state after reset (R22).
-/
namespace Sys2Proof.Machine

/-- `rsm_state` (R13). -/
inductive RsmState where
  /-- No frame is in progress. Coded 0 (R10). -/
  | awaitingHeader
  /-- A usable header has been adopted and blocks are still expected. Coded 1 (R10). -/
  | collecting
deriving DecidableEq, Repr

/-- The seven dispositions of R98. -/
inductive Disp where
  | dropSize
  | hdrAdopted
  | hdrUnusable
  | payNosync
  | payStored
  | frameDone
  | payCodecFail
deriving DecidableEq, Repr

/-- A completed frame: the twelve header fields and the sample bytes (R17, R90). -/
structure Frame where
  hdr  : Header
  data : Bytes
deriving DecidableEq, Repr

/-- The outputs of a transaction (R17, R51). `none` is "no value": the operation does not define that output (R52, I24;
notes/assumptions/10.md). `datagrams` is what went to the transport-send interface, in order. -/
structure Outputs where
  cmdErr     : Bool
  ck         : Option U64
  record     : Option Bytes
  fields     : Option Header
  isHeader   : Option Bool
  emitOk     : Option Bool
  datagrams  : List Bytes
  frameValid : Option Bool
  frame      : Option Frame
  disp       : Option Disp
  abandoned  : Option Bool
deriving DecidableEq, Repr

/-- BUF as (address, byte) pairs: addresses strictly rising, no byte equal to what an unlisted address reads as. -/
abbrev Memory := List Host.Cell

/-- The machine. The first five fields are the whole architectural state of R10; `params` are the read-only parameters of
R18 and R8; `port`, `out` and `freeCount` are the model's own (INVENTORY.md, State). -/
structure State where
  rsm             : RsmState
  hdr             : Header
  blocksRemaining : U16
  nextOffset      : Offset
  buf             : Memory
  params          : Params
  port            : List PortEvent
  out             : Outputs
  freeCount       : Nat
deriving DecidableEq, Repr

/-- What the spec says has no value to go on with. No transaction meets one in a state that keeps R94, which every state
reached from reset does; all are safe (the machine stops). Raised by ACCEPT and by the delivery of HD, PD and PR, on the
payload path in `collecting` only (notes/assumptions/12.md). -/
inductive Fault where
  /-- `hdr` has zero bytes per component: `spb` divides by zero (R66 check U1). Raised by the payload path; safe. -/
  | divideByZero
  /-- `blocks_remaining` is 0 or above `hdr.blockCount`: a count below zero (R66 check U4, R93). Raised by the payload
  path; safe. -/
  | countBelowZero
  /-- The block length exceeds the datagram: bytes of DG that do not exist (R66 check U7). Raised by the payload path;
  safe. -/
  | outsideDatagram
  /-- A write or the completion's read at an address BUF does not have (R26, R66 check U8). Raised by the payload path;
  safe. -/
  | outsideBuffer
deriving DecidableEq, Repr

/-- Why a step has no meaning. -/
inductive Refusal where
  /-- An instruction without a meaning in this model. Raised by exec's refused arms only; safe. There is none. -/
  | notModelled (mnemonic : String)
  /-- What stands on the port is no transaction: its bytes are not the operands R51 lists. Raised by the step before any
  instruction runs; safe (R99: refusals are at the boundary). -/
  | noTransaction (why : DecodeError)
deriving DecidableEq, Repr

/-- No output has a value. -/
def Outputs.idle : Outputs where
  cmdErr     := false
  ck         := none
  record     := none
  fields     := none
  isHeader   := none
  emitOk     := none
  datagrams  := []
  frameValid := none
  frame      := none
  disp       := none
  abandoned  := none

/-- A header register of zeros. -/
def Header.zero : Header where
  centerFrequency    := 0
  sampleRate         := 0
  sampleEncoding     := 0
  sampleBits         := 0
  datagramSize       := 0
  frameSampleCount   := 0
  blockCount         := 0
  remainderSamples   := 0
  completeBlockCount := 0
  captureSeconds     := 0
  captureMicros      := 0
  checksum           := 0

/-- Right after reset: `rsm_state` = AWAITING_HEADER is the one value the spec states (R22). The other values are DESIGN
CHOICES, unsafe: `hdr` and the counters (notes/assumptions/4.md), BUF (5.md), the configured parameters (1.md, 2.md, 3.md),
an empty port (7.md). -/
def State.reset : State where
  rsm             := .awaitingHeader
  hdr             := Header.zero
  blocksRemaining := 0
  nextOffset      := 0
  buf             := []
  params          := { dsRx := 48, bufBytes := 4096, ck := .abstract 0, codecInv := [], codecFwd := [] }
  port            := []
  out             := Outputs.idle
  freeCount       := 0

end Sys2Proof.Machine
end

