-- ==== Sys2Proof/Machine/Flags.lean ====
section
/-!
DEFINITION. The status outputs (R17, R98) and their codes (D14). Each transaction defines every output anew: the outputs it
does not name have no value.
-/
namespace Sys2Proof.Machine

/-- The code of `rsm_state` on its status output (R10, R18). -/
def RsmState.code : RsmState → BitVec 1
  | .awaitingHeader => 0
  | .collecting => 1

/-- `rsm_state` as it may be observed between transactions; observing it has no side effect (R18). -/
def State.rsmStatus (s : State) : BitVec 1 := s.rsm.code

/-- The code of a disposition (R98). Code 7 is never produced. -/
def Disp.code : Disp → BitVec 3
  | .dropSize => 0
  | .hdrAdopted => 1
  | .hdrUnusable => 2
  | .payNosync => 3
  | .payStored => 4
  | .frameDone => 5
  | .payCodecFail => 6

/-- CKSUM's outputs (R56). -/
def cksumOutputs (v : U64) : Outputs := { Outputs.idle with ck := some v }

/-- HDRPACK's outputs (R60). -/
def hdrpackOutputs (r : Bytes) : Outputs := { Outputs.idle with record := some r }

/-- HDRUNPACK's outputs (R61). -/
def hdrunpackOutputs (h : Header) : Outputs := { Outputs.idle with fields := some h }

/-- CLASSIFY's outputs (R62). -/
def classifyOutputs (b : Bool) : Outputs := { Outputs.idle with isHeader := some b }

/-- What a record on the record interface gives: HDRUNPACK's outputs and CLASSIFY's (R49, R61, R62). -/
def recordOutputs (h : Header) (b : Bool) : Outputs := { Outputs.idle with fields := some h, isHeader := some b }

/-- EMIT's outputs: admitted, with the datagrams in order (R75), or refused, with none (R69). -/
def emitOutputs : Option (List Bytes) → Outputs
  | some ds => { Outputs.idle with emitOk := some true, datagrams := ds }
  | none => { Outputs.idle with emitOk := some false }

/-- ACCEPT's outputs (R78): `frame_valid` is 1 exactly when there is a frame (R17). -/
def acceptOutputs (d : Disp) (abandoned : Bool) (frame : Option Frame) : Outputs :=
  { Outputs.idle with
    disp := some d, abandoned := some abandoned, frameValid := some frame.isSome, frame := frame }

/-- A reserved select: `cmd_err` = 1, every other output has no value (R52). -/
def reservedOutputs : Outputs := { Outputs.idle with cmdErr := true }

end Sys2Proof.Machine
end

