-- ==== Sys2Proof/Machine/Ops.lean ====
section
/-!
DEFINITION. The named operations over memory and state: reads and writes of BUF (R25, R32), the end of a transaction, the
early exit `raise` (R98, R130 section 5.3; the block's only exception-like event, and nothing returns from it: R108, R109),
the codec stages (R76, R87), and the reset input (R113).
-/
namespace Sys2Proof.Machine

/-- What an unlisted byte of BUF reads as. DESIGN CHOICE, unsafe: notes/assumptions/5.md. -/
def Memory.blank : Byte := 0

/-- One byte of BUF. Reading has no side effect (R32). -/
def Memory.read : Memory → Nat → Byte
  | [], _ => Memory.blank
  | (b, w) :: m, a => if a = b then w else Memory.read m a

/-- Put one byte of BUF; the canonical form is kept. -/
def Memory.write : Memory → Nat → Byte → Memory
  | [], a, v => if v = Memory.blank then [] else [(a, v)]
  | (b, w) :: m, a, v =>
    if a < b then (if v = Memory.blank then (b, w) :: m else (a, v) :: (b, w) :: m)
    else if a = b then (if v = Memory.blank then m else (a, v) :: m)
    else (b, w) :: Memory.write m a v

/-- `MemRead(BUF, addr, n)` (R130). -/
def Memory.readBytes (m : Memory) (a : Nat) : Nat → Bytes
  | 0 => []
  | n + 1 => Memory.read m a :: Memory.readBytes m (a + 1) n

/-- `MemWrite(BUF, addr, n, v)` with `n` the length of `v` (R130). -/
def Memory.writeBytes : Memory → Nat → Bytes → Memory
  | m, _, [] => m
  | m, a, v :: vs => Memory.writeBytes (Memory.write m a v) (a + 1) vs

/-- All listed addresses are at or above `lo`, strictly rising, and no listed byte is what an unlisted one reads as. -/
def Memory.wfFrom : Nat → Memory → Bool
  | _, [] => true
  | lo, (a, v) :: m => decide (lo ≤ a) && !decide (v = Memory.blank) && Memory.wfFrom (a + 1) m

/-- The canonical form of BUF. -/
def Memory.wf (m : Memory) : Bool := Memory.wfFrom 0 m

/-- Every listed address is one BUF has: below `n`. -/
def Memory.below (n : Nat) : Memory → Bool
  | [] => true
  | (a, _) :: m => decide (a < n) && Memory.below n m

/-- BUF as a list of writes below `n` leaves it, from blank. -/
def Memory.ofWrites (n : Nat) : List (Nat × Byte) → Memory
  | [] => []
  | (a, v) :: ws => if a < n then Memory.write (Memory.ofWrites n ws) a v else Memory.ofWrites n ws

/-- The outputs of a transaction replace those of the one before (R17). -/
def setOut (o : Outputs) (s : State) : State := { s with out := o }

/-- The end of a transaction with outputs `o` and no other change of state. -/
def finish (o : Outputs) (s : State) : Host.Outcome State Fault Refusal := .next (setOut o s)

/-- `raise <Disposition>` (R130 section 5.3, R98): the transaction ends with the disposition and the flags, and no state
changes other than what is already written in `s`. -/
def raiseDisp (d : Disp) (abandoned : Bool) (frame : Option Frame) (s : State) : Host.Outcome State Fault Refusal :=
  finish (acceptOutputs d abandoned frame) s

/-- A codec parameter's entry for a nibble. Nibble 0 is the identity and never looked up (D12). -/
def codecEntry (table : List CodecEntry) (c : U4) : Option CodecEntry :=
  if c = 0 then none else table.find? fun e => decide (e.nibble = c)

/-- The image of a datagram under a transform's table, if it lists one. -/
def graphImage : List (Bytes × Bytes) → Bytes → Option Bytes
  | [], _ => none
  | (x, y) :: g, d => if d = x then some y else graphImage g d

/-- An inverse transform of a datagram, before its length is brought to the datagram's. A table has no result for what it
does not list. -/
def inverseImage : CodecFn → Bytes → Option Bytes
  | .table g, d => graphImage g d
  | .abstract k, d => Config.codecInv k d

/-- A forward transform of a datagram, before its length is brought to the datagram's. A table leaves what it does not list
as it is (notes/assumptions/3.md). -/
def forwardImage : CodecFn → Bytes → Bytes
  | .table g, d => (graphImage g d).getD d
  | .abstract k, d => Config.codecFwd k d

/-- `CodecInv` is defined for the nibble, or there is nothing to invert (R66 check U9). -/
def codecInvDefined (p : Params) (c : U4) : Bool := decide (c = 0) || (codecEntry p.codecInv c).isSome

/-- The inverse transform of a received datagram (R87): the datagram itself when `c` = 0, else `CodecInv(c, dg)`, which may
have no result (R88). -/
def inverseTransform (p : Params) (c : U4) (dg : Bytes) : Option Bytes :=
  if c = 0 then some dg
  else
    match codecEntry p.codecInv c with
    | none => none
    | some e => (inverseImage e.transform dg).map (resize dg.length)

/-- `CodecFwd` is defined for the nibble, or there is nothing to apply (R69 check E4). -/
def codecFwdDefined (p : Params) (c : U4) : Bool := decide (c = 0) || (codecEntry p.codecFwd c).isSome

/-- `Fwd` (R76): the identity when `c` = 0, else `CodecFwd(c, d)`. -/
def forwardTransform (p : Params) (c : U4) (d : Bytes) : Bytes :=
  if c = 0 then d
  else
    match codecEntry p.codecFwd c with
    | none => d
    | some e => resize d.length (forwardImage e.transform d)

/-- The reset input, asserted and released between transactions (R113): `rsm_state` becomes AWAITING_HEADER, every other
piece of state unspecified (free values, notes/assumptions/6.md); the parameters are not reset, and no transaction reports a
frame that was in progress. -/
def applyReset (s : State) : State :=
  { s with
    rsm             := .awaitingHeader
    hdr             := Config.freeHeader s.freeCount
    blocksRemaining := Config.freeBlocks s.freeCount
    nextOffset      := Config.freeOffset s.freeCount
    buf             := Memory.ofWrites s.params.bufBytes (Config.freeBuf s.freeCount)
    out             := Outputs.idle
    freeCount       := s.freeCount + 1 }

end Sys2Proof.Machine
end

