-- ==== Sys2Proof/Machine/Operands.lean ====
section
/-!
DEFINITION. Quantities computed from a header record or from EMIT's operands: R15, the usable-header checks of R66, EMIT's
counts and refusals (R69, R70), and the block length of the payload path (R86). All are natural numbers, computed without
wrap-around (R93).
-/
namespace Sys2Proof.Machine

/-- Bytes per I or Q component, bits 3:0 of `sampleEncoding` (R15, R43). -/
def bpcOf (h : HeaderBody) : Nat := (h.sampleEncoding.extractLsb' 0 4).toNat

/-- The codec indicator bits, bits 7:4 of `sampleEncoding` (R15, R43). -/
def codecOf (h : HeaderBody) : U4 := h.sampleEncoding.extractLsb' 4 4

/-- `sampleEncoding = (codec << 4) | bpc` (R43). -/
def sampleEncodingOf (codec bpc : U4) : U8 := codec ++ bpc

/-- Samples per block, `DS div (2 * bpc)` (R15); used only where `bpc` is not 0. -/
def spbOf (ds bpc : Nat) : Nat := ds / (2 * bpc)

/-- `blockCount` for the given counts: `cbc + (rem > 0 ? 1 : 0)` (R65, R70). -/
def blocksFor (cbc rem : Nat) : Nat := cbc + if 0 < rem then 1 else 0

/-- The size of the frame in BUF (R15). -/
def frameBytes (h : HeaderBody) : Nat := h.frameSampleCount.toNat * 2 * bpcOf h

/-- Samples per block of a received header at the receiver's datagram size (R66). -/
def rxSpb (p : Params) (h : HeaderBody) : Nat := spbOf p.dsRx.toNat (bpcOf h)

/-- Check U1. -/
def usableU1 (h : HeaderBody) : Bool := decide (bpcOf h ≠ 0)

/-- Check U2. -/
def usableU2 (p : Params) (h : HeaderBody) : Bool := decide (h.datagramSize = p.dsRx)

/-- Check U3. -/
def usableU3 (p : Params) (h : HeaderBody) : Bool := decide (1 ≤ rxSpb p h)

/-- Check U4. -/
def usableU4 (h : HeaderBody) : Bool := decide (1 ≤ h.blockCount.toNat)

/-- Check U5. -/
def usableU5 (h : HeaderBody) : Bool :=
  decide (h.blockCount.toNat = blocksFor h.completeBlockCount.toNat h.remainderSamples.toNat)

/-- Check U6. -/
def usableU6 (p : Params) (h : HeaderBody) : Bool :=
  decide (h.frameSampleCount.toNat = h.completeBlockCount.toNat * rxSpb p h + h.remainderSamples.toNat)

/-- Check U7. -/
def usableU7 (p : Params) (h : HeaderBody) : Bool := decide (h.remainderSamples.toNat < rxSpb p h)

/-- Check U8. -/
def usableU8 (p : Params) (h : HeaderBody) : Bool := decide (frameBytes h ≤ p.bufBytes)

/-- Check U9. -/
def usableU9 (p : Params) (h : HeaderBody) : Bool := codecInvDefined p (codecOf h)

/-- A usable header: all nine checks of R66. -/
def usable (p : Params) (h : HeaderBody) : Bool :=
  usableU1 h && usableU2 p h && usableU3 p h && usableU4 h && usableU5 h && usableU6 p h && usableU7 p h &&
  usableU8 p h && usableU9 p h

/-- `idx`: the number of blocks of the frame already stored (R86). -/
def blockIndex (s : State) : Nat := s.hdr.blockCount.toNat - s.blocksRemaining.toNat

/-- `ns`: the samples in block `idx` of the header's frame (R86, 90_conflicts.md C3). -/
def blockSamples (p : Params) (h : HeaderBody) (idx : Nat) : Nat :=
  if idx < h.completeBlockCount.toNat then rxSpb p h else h.remainderSamples.toNat

/-- `n`: the bytes of block `idx` of the header's frame (R86). -/
def blockLength (p : Params) (h : HeaderBody) (idx : Nat) : Nat := blockSamples p h idx * 2 * bpcOf h

/-- `n` for the block that is due (R86). -/
def blockBytes (s : State) : Nat := blockLength s.params s.hdr.toHeaderBody (blockIndex s)

/-- A frame is being collected and the block it is due is the remainder block: what makes a payload datagram PR and not PD
(R48; known to the receiver by counting only). -/
def remainderDue (s : State) : Bool :=
  decide (s.rsm = .collecting) && !decide (blockIndex s < s.hdr.completeBlockCount.toNat)

/-- EMIT's samples per block (R70). -/
def emitSpb (q : EmitRequest) : Nat := spbOf q.datagramSize.toNat q.bytesPerComponent.toNat

/-- EMIT's `cbc` (R70). -/
def emitComplete (q : EmitRequest) : Nat := q.count.toNat / emitSpb q

/-- EMIT's `rem` (R70). -/
def emitRemainder (q : EmitRequest) : Nat := q.count.toNat % emitSpb q

/-- EMIT's `bc` (R70). -/
def emitBlocks (q : EmitRequest) : Nat := blocksFor (emitComplete q) (emitRemainder q)

/-- Check E1 (R69). -/
def refusedE1 (q : EmitRequest) : Bool := decide (q.bytesPerComponent = 0)

/-- Check E2 (R69). -/
def refusedE2 (q : EmitRequest) : Bool := decide (q.datagramSize.toNat < 42)

/-- Check E3 (R69). -/
def refusedE3 (q : EmitRequest) : Bool :=
  decide (65535 < emitComplete q) || (decide (emitComplete q = 65535) && decide (0 < emitRemainder q))

/-- Check E4 (R69). -/
def refusedE4 (p : Params) (q : EmitRequest) : Bool := !codecFwdDefined p q.codec

/-- EMIT is refused (R69). -/
def emitRefused (p : Params) (q : EmitRequest) : Bool :=
  refusedE1 q || refusedE2 q || refusedE3 q || refusedE4 p q

/-- The header fields of an EMIT (R71). -/
def emitFields (q : EmitRequest) : HeaderBody where
  centerFrequency    := q.frequency
  sampleRate         := q.sampleRate
  sampleEncoding     := sampleEncodingOf q.codec q.bytesPerComponent
  sampleBits         := q.bitsPerComponent
  datagramSize       := q.datagramSize
  frameSampleCount   := q.count
  blockCount         := BitVec.ofNat 16 (emitBlocks q)
  remainderSamples   := BitVec.ofNat 16 (emitRemainder q)
  completeBlockCount := BitVec.ofNat 16 (emitComplete q)
  captureSeconds     := q.tsSec
  captureMicros      := q.tsUsec

end Sys2Proof.Machine
end

