-- ==== Sys2Proof/Machine/Checksum.lean ====
section
/-!
DEFINITION. The checksum family: CKSUM (spec/40_checksum.md R56).
-/
namespace Sys2Proof.Machine

/-- CKSUM (R56): `ck <- CK(data[0 .. len))`. No state is read or written; it cannot fail. -/
def execCksum (len : U16) (data : Bytes) (s : State) : Host.Outcome State Fault Refusal :=
  finish (cksumOutputs (s.params.ck.run (slice data 0 len.toNat))) s

end Sys2Proof.Machine
end

