-- ==== Sys2Proof/Machine/HeaderCodec.lean ====
section
/-!
DEFINITION. The header codec family (spec/41_header_codec.md R60 to R62), and a bare record of format H (R41). None reads or
writes state, and none can fail.
-/
namespace Sys2Proof.Machine

/-- HDRPACK (R60). Nothing is checked. -/
def execHdrpack (v : HeaderBody) (s : State) : Host.Outcome State Fault Refusal :=
  finish (hdrpackOutputs (packRecord s.params.ck.run v)) s

/-- HDRUNPACK (R61). The checksum is not checked and `hdr` is not written. -/
def execHdrunpack (record : Bytes) (s : State) : Host.Outcome State Fault Refusal :=
  finish (hdrunpackOutputs (unpackRecord record)) s

/-- CLASSIFY (R62). No field value is examined. -/
def execClassify (record : Bytes) (s : State) : Host.Outcome State Fault Refusal :=
  finish (classifyOutputs (isHeaderBytes s.params.ck.run record)) s

/-- A record of format H on the record interface: unpacked by the layout of R41 and R42 and classified by R49. DESIGN
CHOICE, safe: R41 gives the row no operation of its own (notes/assumptions/9.md). -/
def execH (record : Bytes) (s : State) : Host.Outcome State Fault Refusal :=
  finish (recordOutputs (unpackRecord record) (isHeaderBytes s.params.ck.run record)) s

end Sys2Proof.Machine
end

