-- ==== Sys2Proof/Machine/Packetizer.lean ====
section
/-!
DEFINITION. The packetizer: EMIT (spec/42_packetizer.md R68 to R76).
-/
namespace Sys2Proof.Machine

/-- `B`: bytes of samples in a full block (R73). -/
def emitBlockBytes (q : EmitRequest) : Nat := emitSpb q * 2 * q.bytesPerComponent.toNat

/-- `R`: bytes of samples in the remainder block (R74). -/
def emitRemainderBytes (q : EmitRequest) : Nat := emitRemainder q * 2 * q.bytesPerComponent.toNat

/-- Bytes of samples zero-filled to a datagram (R73, R74). -/
def fillDatagram (q : EmitRequest) (samples : Bytes) : Bytes :=
  samples ++ zeros (q.datagramSize.toNat - samples.length)

/-- Step 3, the header datagram (R72). -/
def emitHeader (p : Params) (q : EmitRequest) : Bytes :=
  packRecord p.ck.run (emitFields q) ++ zeros (q.datagramSize.toNat - recordBytes)

/-- Step 4, full block `k` (R73). -/
def emitFull (p : Params) (q : EmitRequest) (k : Nat) : Bytes :=
  forwardTransform p q.codec
    (fillDatagram q (slice q.samples (k * emitBlockBytes q) ((k + 1) * emitBlockBytes q)))

/-- Step 5, the remainder block (R74). -/
def emitLast (p : Params) (q : EmitRequest) : Bytes :=
  forwardTransform p q.codec
    (fillDatagram q
      (slice q.samples (emitComplete q * emitBlockBytes q)
        (emitComplete q * emitBlockBytes q + emitRemainderBytes q)))

/-- The payload datagrams of the frame, in frame order (R73 to R75). -/
def emitPayload (p : Params) (q : EmitRequest) : List Bytes :=
  (List.range (emitComplete q)).map (emitFull p q) ++ if 0 < emitRemainder q then [emitLast p q] else []

/-- The datagrams of an EMIT in order (R75), or none where it is refused (R69). -/
def packetize (p : Params) (q : EmitRequest) : Option (List Bytes) :=
  if emitRefused p q then none else some (emitHeader p q :: emitPayload p q)

/-- EMIT (R68). No state is read or written (R21). -/
def execEmit (q : EmitRequest) (s : State) : Host.Outcome State Fault Refusal :=
  finish (emitOutputs (packetize s.params q)) s

end Sys2Proof.Machine
end

