-- ==== Sys2Proof/Machine/Reassembler.lean ====
section
/-!
DEFINITION. The reassembler: ACCEPT (spec/43_reassembler.md R78 to R91), and the delivery of a datagram of the wire formats
HD, PD and PR to `accept` (R5, R44, R46, R48).
-/
namespace Sys2Proof.Machine

/-- A usable header is adopted (R82, R83): BUF is claimed from 0, and no byte of it is written. -/
def adoptHeader (h : Header) (s : State) : State :=
  { s with hdr := h, blocksRemaining := h.blockCount, nextOffset := 0, rsm := .collecting }

/-- A header that is not usable is adopted and nothing is collected (R82, R84): the counters keep what they held. -/
def parkHeader (h : Header) (s : State) : State := { s with hdr := h, rsm := .awaitingHeader }

/-- The frame in BUF has been handed over (R90, R24): `hdr`, the counters and BUF stay as they are. -/
def releaseFrame (s : State) : State := { s with rsm := .awaitingHeader }

/-- The header path (R82 to R84): the frame in progress is abandoned and the header adopted in every case; whether a
collection starts is decided by R66. -/
def headerPath (dg : Bytes) (s : State) : Host.Outcome State Fault Refusal :=
  let abandoned := decide (s.rsm = .collecting)
  let h := unpackRecord (slice dg 0 42)
  if usable s.params h.toHeaderBody then
    raiseDisp .hdrAdopted abandoned none (adoptHeader h s)
  else
    raiseDisp .hdrUnusable abandoned none (parkHeader h s)

/-- Copy, advance, decrement (R89): `n` bytes of the block go to BUF at `next_offset`. -/
def storeBlock (blk : Bytes) (n : Nat) (s : State) : State :=
  { s with
    buf             := Memory.writeBytes s.buf s.nextOffset.toNat (slice blk 0 n)
    nextOffset      := s.nextOffset + BitVec.ofNat 37 n
    blocksRemaining := s.blocksRemaining - 1 }

/-- The frame in BUF (R90). -/
def completedFrame (s : State) : Frame where
  hdr  := s.hdr
  data := Memory.readBytes s.buf 0 (frameBytes s.hdr.toHeaderBody)

/-- Completion (R90), after a block has been stored. -/
def completeOrContinue (s : State) : Host.Outcome State Fault Refusal :=
  if s.blocksRemaining = 0 then
    if frameBytes s.hdr.toHeaderBody ≤ s.params.bufBytes then
      raiseDisp .frameDone false (some (completedFrame s)) (releaseFrame s)
    else .fault .outsideBuffer
  else raiseDisp .payStored false none s

/-- The payload path in COLLECTING (R86 to R90). The faults are for states that break R94 (notes/assumptions/12.md). -/
def collectBlock (dg : Bytes) (s : State) : Host.Outcome State Fault Refusal :=
  if bpcOf s.hdr.toHeaderBody = 0 then .fault .divideByZero
  else if s.blocksRemaining.toNat = 0 ∨ s.hdr.blockCount.toNat < s.blocksRemaining.toNat then .fault .countBelowZero
  else
    match inverseTransform s.params (codecOf s.hdr.toHeaderBody) dg with
    | none => raiseDisp .payCodecFail false none s
    | some blk =>
      if blk.length < blockBytes s then .fault .outsideDatagram
      else if s.params.bufBytes < s.nextOffset.toNat + blockBytes s ∨ 2 ^ 37 ≤ s.nextOffset.toNat + blockBytes s then
        .fault .outsideBuffer
      else completeOrContinue (storeBlock blk (blockBytes s) s)

/-- The payload path (R85, R86). -/
def payloadPath (dg : Bytes) (s : State) : Host.Outcome State Fault Refusal :=
  match s.rsm with
  | .awaitingHeader => raiseDisp .payNosync false none s
  | .collecting => collectBlock dg s

/-- `accept` of a datagram of `len` bytes: the size check, then the comparison, then the header path or the payload path
(R79, R80, R81, R107). -/
def acceptDatagram (len : Nat) (dg : Bytes) (s : State) : Host.Outcome State Fault Refusal :=
  if len ≠ s.params.dsRx.toNat then raiseDisp .dropSize false none s
  else if isHeaderBytes s.params.ck.run dg then headerPath dg s
  else payloadPath dg s

/-- ACCEPT (R78). -/
def execAccept (len : U16) (dg : Bytes) (s : State) : Host.Outcome State Fault Refusal :=
  acceptDatagram len.toNat dg s

/-- A header datagram delivered to `accept` (R44; notes/assumptions/9.md). -/
def execHd (dg : Bytes) (s : State) : Host.Outcome State Fault Refusal := acceptDatagram dg.length dg s

/-- A payload datagram delivered to `accept` where a full block is due (R46; notes/assumptions/9.md). -/
def execPd (dg : Bytes) (s : State) : Host.Outcome State Fault Refusal := acceptDatagram dg.length dg s

/-- A payload datagram delivered to `accept` where the remainder block is due (R48; notes/assumptions/9.md). -/
def execPr (dg : Bytes) (s : State) : Host.Outcome State Fault Refusal := acceptDatagram dg.length dg s

end Sys2Proof.Machine
end

