-- ==== Sys2Proof/Machine/Reserved.lean ====
section
/-!
DEFINITION. The two reserved operation selects (spec/30_encoding.md R52, D22).
-/
namespace Sys2Proof.Machine

/-- `op` = 110 (R52): nothing is done, `cmd_err` = 1. -/
def execReserved6 (s : State) : Host.Outcome State Fault Refusal := finish reservedOutputs s

/-- `op` = 111 (R52): nothing is done, `cmd_err` = 1. -/
def execReserved7 (s : State) : Host.Outcome State Fault Refusal := finish reservedOutputs s

end Sys2Proof.Machine
end

