-- ==== Sys2Proof/Machine/Dispatch.lean ====
section
/-!
DEFINITION. One arm per constructor of Instr, each one direct call of that row's meaning.
-/
namespace Sys2Proof.Machine

def exec (i : Instr) (s : State) : Host.Outcome State Fault Refusal :=
  match i with
  | .h record => Sys2Proof.Machine.execH record s
  | .hd dg => Sys2Proof.Machine.execHd dg s
  | .pd dg => Sys2Proof.Machine.execPd dg s
  | .pr dg => Sys2Proof.Machine.execPr dg s
  | .cksum len data => Sys2Proof.Machine.execCksum len data s
  | .hdrpack fields => Sys2Proof.Machine.execHdrpack fields s
  | .hdrunpack record => Sys2Proof.Machine.execHdrunpack record s
  | .classify record => Sys2Proof.Machine.execClassify record s
  | .emit req => Sys2Proof.Machine.execEmit req s
  | .accept len dg => Sys2Proof.Machine.execAccept len dg s
  | .reserved6 => Sys2Proof.Machine.execReserved6 s
  | .reserved7 => Sys2Proof.Machine.execReserved7 s

end Sys2Proof.Machine
end

