-- ==== Sys2Proof/Machine/Port.lean ====
section
/-!
DEFINITION. Taking the next input from the ports: what a transaction decodes to in a state (R49, R50), and how one input
acts (R33, R99, R113).
-/
namespace Sys2Proof.Machine

/-- The instruction a transaction presents to the block in this state: the decoder with the block's own checksum function,
its datagram size, and its count (R48, R49). -/
def State.decode (s : State) (t : Transaction) : Except DecodeError Instr :=
  Sys2Proof.decode s.params.ck.run s.params.dsRx (remainderDue s) t

/-- A transaction, as one indivisible step (R33). -/
def runTransaction (t : Transaction) (s : State) : Host.Outcome State Fault Refusal :=
  match s.decode t with
  | .ok i => exec i s
  | .error why => .refused (.noTransaction why)

/-- One input: the reset input (R113), or a transaction. -/
def runEvent (e : PortEvent) (s : State) : Host.Outcome State Fault Refusal :=
  match e with
  | .rst => .next (applyReset s)
  | .run t => runTransaction t s

/-- The state in which the word's instruction is the next input (notes/assumptions/7.md). A datagram, unlike a command or a
record, is one only at the receiver's own datagram size: that parameter and the reading with CK_ref are then set with it. -/
def State.presentWord (s : State) (nbits w : Nat) : State :=
  if 8 * recordBytes < nbits then
    { s with
      port   := .run (tableTransaction nbits w) :: s.port
      params := { s.params with dsRx := BitVec.ofNat 16 (nbits / 8), ck := .reference } }
  else { s with port := .run (tableTransaction nbits w) :: s.port }

end Sys2Proof.Machine
end

