-- ==== Sys2Proof/Machine/Step.lean ====
section
/-!
DEFINITION. One step: the next input on the ports, in the order the caller issued them (R35). Between transactions the
block does nothing (R129), so with nothing presented the state stays as it is.
-/
namespace Sys2Proof.Machine

/-- One step of the block. -/
def step (s : State) : Host.Outcome State Fault Refusal :=
  match s.port with
  | [] => .next s
  | e :: es => runEvent e { s with port := es }

/-- `s` with the instruction whose bits are `w` presented as its next input. -/
def State.withFetchWord (s : State) (nbits w : Nat) : State := s.presentWord nbits w

end Sys2Proof.Machine
end

