-- ==== Sys2Proof/Safety.lean ====
section
/-!
DEFINITION. What the claims speak of: the invariant of R18, R94 and of BUF's canonical form, runs of several steps, the bytes
a collection has stored, and which parts of two states an observer of the outputs can tell apart (R23).
-/
namespace Sys2Proof.Machine

/-- BUF is in its canonical form, and every byte listed is one BUF has (R25, R26). -/
def State.bufOk (s : State) : Bool := Memory.wf s.buf && Memory.below s.params.bufBytes s.buf

/-- `B`: the bytes of a full block of the header's frame (R94). -/
def fullBlockBytes (p : Params) (h : HeaderBody) : Nat := rxSpb p h * 2 * bpcOf h

/-- R94 (a), (b), (c): what holds of `hdr` and the counters while a frame is collected. -/
def State.frameOk (s : State) : Bool :=
  usable s.params s.hdr.toHeaderBody &&
  (decide (1 ≤ s.blocksRemaining.toNat) && decide (s.blocksRemaining.toNat ≤ s.hdr.blockCount.toNat)) &&
  decide (s.nextOffset.toNat = blockIndex s * fullBlockBytes s.params s.hdr.toHeaderBody)

/-- The invariant between transactions: legal parameters (R18), BUF in order, and R94 while collecting. -/
def State.inv (s : State) : Bool :=
  s.params.legal && s.bufOk && (decide (s.rsm = .awaitingHeader) || s.frameOk)

/-- `k` steps, with the outputs after each, oldest first; nothing if one of them stops. -/
def trace : Nat → State → Option (List Outputs × State)
  | 0, s => some ([], s)
  | k + 1, s =>
    match step s with
    | .next t => (trace k t).map fun r => (t.out :: r.1, r.2)
    | .fault _ => none
    | .refused _ => none

/-- Datagrams in the order the transport-receive interface delivers them (R5, R36). -/
def deliveries (ds : List Bytes) : List PortEvent := ds.map fun d => .run (.datagram d)

/-- The bytes stored for blocks `idx`, `idx + 1`, ... of a header's frame, in arrival order (R89, R94 (e)). -/
def storedBytes (p : Params) (h : HeaderBody) : Nat → List Bytes → Bytes
  | _, [] => []
  | idx, b :: bs => slice b 0 (blockLength p h idx) ++ storedBytes p h (idx + 1) bs

/-- The four instructions that deliver the datagram `d` to `accept`: the operation, and the three wire formats (R5, R78). -/
def receives (d : Bytes) (i : Instr) : Prop :=
  (∃ len : U16, len.toNat = d.length ∧ i = .accept len d) ∨ i = .hd d ∨ i = .pd d ∨ i = .pr d

/-- The instructions that neither read nor write the state R10 lists (R12, R21, R52). -/
def stateless : Instr → Bool
  | .h _ => true
  | .hd _ => false
  | .pd _ => false
  | .pr _ => false
  | .cksum _ _ => true
  | .hdrpack _ => true
  | .hdrunpack _ => true
  | .classify _ => true
  | .emit _ => true
  | .accept _ _ => false
  | .reserved6 => true
  | .reserved7 => true

/-- The datagram is of the receiver's size and passes the comparison: it takes the header path (R79). -/
def takesHeaderPath (p : Params) (d : Bytes) : Bool :=
  decide (d.length = p.dsRx.toNat) && isHeaderBytes p.ck.run d

/-- The datagram is of the receiver's size and fails the comparison: it takes the payload path (R79). -/
def takesPayloadPath (p : Params) (d : Bytes) : Bool :=
  decide (d.length = p.dsRx.toNat) && !isHeaderBytes p.ck.run d

/-- The datagram would be stored by a collection whose header has the codec nibble `c` (R87, R88). -/
def storable (p : Params) (c : U4) (d : Bytes) : Bool :=
  takesPayloadPath p d && (inverseTransform p c d).isSome

/-- Two states that differ in dead values alone (R23, R39): `hdr`, the counters and BUF count only while collecting, and of
BUF only the bytes below `next_offset`. `freeCount` does not count. -/
def State.sameLive (s u : State) : Prop :=
  s.rsm = u.rsm ∧ s.params = u.params ∧ s.port = u.port ∧ s.out = u.out ∧
  (s.rsm = .collecting →
    s.hdr = u.hdr ∧ s.blocksRemaining = u.blocksRemaining ∧ s.nextOffset = u.nextOffset ∧
    ∀ a, a < s.nextOffset.toNat → Memory.read s.buf a = Memory.read u.buf a)

/-- Everything but the outputs is the same: no architectural state, parameter or input is changed. -/
def State.sameButOut (s t : State) : Prop :=
  t.rsm = s.rsm ∧ t.hdr = s.hdr ∧ t.blocksRemaining = s.blocksRemaining ∧ t.nextOffset = s.nextOffset ∧
  (∀ a, Memory.read t.buf a = Memory.read s.buf a) ∧ t.buf = s.buf ∧
  t.params = s.params ∧ t.port = s.port ∧ t.freeCount = s.freeCount

end Sys2Proof.Machine
end

