-- ==== Sys2Proof/Certificates/Slice0/Obligations.lean ====
section
/-!
DEFINITION. The statements for the provers, each a proposition over the model. None rests on a program, and none on a value
the model chose for an open one.
-/
open Sys2Proof Sys2Proof.Machine

/-- R56: CKSUM answers CK of its operand, for every checksum function, and changes nothing else. -/
def Obligations.CksumGivesChecksumOfData : Prop :=
  ∀ (len : U16) (data : Bytes) (s : State), data.length = len.toNat →
    exec (.cksum len data) s =
      .next { s with out := { Outputs.idle with ck := some (s.params.ck.run data) } }

/-- R60: HDRPACK's record, field by field. -/
def Obligations.HdrpackGivesRecord : Prop :=
  ∀ (v : HeaderBody) (s : State),
    let body := toLe 8 v.centerFrequency ++ toLe 4 v.sampleRate ++ toLe 1 v.sampleEncoding ++ toLe 1 v.sampleBits ++
      toLe 2 v.datagramSize ++ toLe 4 v.frameSampleCount ++ toLe 2 v.blockCount ++ toLe 2 v.remainderSamples ++
      toLe 2 v.completeBlockCount ++ toLe 4 v.captureSeconds ++ toLe 4 v.captureMicros
    exec (.hdrpack v) s =
      .next { s with out := { Outputs.idle with record := some (body ++ toLe 8 (s.params.ck.run body)) } }

/-- R61: HDRUNPACK's twelve fields, at the offsets and widths of the record. -/
def Obligations.HdrunpackGivesFields : Prop :=
  ∀ (record : Bytes) (s : State), record.length = 42 →
    let h : Header :=
      { centerFrequency := le 64 (slice record 0 8)
        sampleRate := le 32 (slice record 8 12)
        sampleEncoding := le 8 (slice record 12 13)
        sampleBits := le 8 (slice record 13 14)
        datagramSize := le 16 (slice record 14 16)
        frameSampleCount := le 32 (slice record 16 20)
        blockCount := le 16 (slice record 20 22)
        remainderSamples := le 16 (slice record 22 24)
        completeBlockCount := le 16 (slice record 24 26)
        captureSeconds := le 32 (slice record 26 30)
        captureMicros := le 32 (slice record 30 34)
        checksum := le 64 (slice record 34 42) }
    exec (.hdrunpack record) s = .next { s with out := { Outputs.idle with fields := some h } }

/-- R62: CLASSIFY compares CK of the first 34 bytes with the last 8, and examines no field. -/
def Obligations.ClassifyComparesChecksum : Prop :=
  ∀ (record : Bytes) (s : State), record.length = 42 →
    exec (.classify record) s =
      .next { s with out := { Outputs.idle with
        isHeader := some (decide (s.params.ck.run (slice record 0 34) = le 64 (slice record 34 42))) } }

/-- Format H (R41, R49): a bare record gives the outputs of HDRUNPACK and of CLASSIFY together. That the row has this
effect is the model's choice, notes/assumptions/9.md. -/
def Obligations.RecordIsUnpackedAndClassified : Prop :=
  ∀ (record : Bytes) (s : State), record.length = 42 →
    ∃ t u, exec (.hdrunpack record) s = .next t ∧ exec (.classify record) s = .next u ∧
      exec (.h record) s =
        .next { s with out := { Outputs.idle with fields := t.out.fields, isHeader := u.out.isHeader } }

/-- R52, the reserved selects: no state changes, no datagram is emitted, `cmd_err` = 1, no other output has a value. -/
def Obligations.ReservedSelectsOnlySetCmdErr : Prop :=
  ∀ s : State,
    exec .reserved6 s = .next { s with out := { Outputs.idle with cmdErr := true } } ∧
    exec .reserved7 s = .next { s with out := { Outputs.idle with cmdErr := true } }

/-- R69: EMIT is refused exactly when E1, E2, E3 or E4 holds; then nothing is emitted. -/
def Obligations.EmitRefusedExactlyOnItsChecks : Prop :=
  ∀ (q : EmitRequest) (s : State), q.samples.length = q.sampleBytes →
    let spb := q.datagramSize.toNat / (2 * q.bytesPerComponent.toNat)
    let refused := q.bytesPerComponent.toNat = 0 ∨ q.datagramSize.toNat < 42 ∨
      (65535 < q.count.toNat / spb ∨ (q.count.toNat / spb = 65535 ∧ 0 < q.count.toNat % spb)) ∨
      (q.codec ≠ 0 ∧ ¬∃ e, e ∈ s.params.codecFwd ∧ e.nibble = q.codec)
    (refused → exec (.emit q) s = .next { s with out := { Outputs.idle with emitOk := some false } }) ∧
    (¬refused → ∃ ds, ds ≠ [] ∧
      exec (.emit q) s = .next { s with out := { Outputs.idle with emitOk := some true, datagrams := ds } })

/-- R70 to R74: the counts, the header record and its datagram, the full blocks in frame order, and the remainder block; where
the codec nibble is 0 the payload is sent as it is (R73, R76). -/
def Obligations.EmitSendsHeaderThenBlocks : Prop :=
  ∀ (q : EmitRequest) (s : State), q.samples.length = q.sampleBytes → emitRefused s.params q = false →
    let n := q.count.toNat
    let bpc := q.bytesPerComponent.toNat
    let size := q.datagramSize.toNat
    let spb := size / (2 * bpc)
    let cbc := n / spb
    let rem := n % spb
    let bc := cbc + if 0 < rem then 1 else 0
    let fields : HeaderBody :=
      { centerFrequency := q.frequency, sampleRate := q.sampleRate,
        sampleEncoding := (q.codec.zeroExtend 8 <<< 4) ||| q.bytesPerComponent.zeroExtend 8,
        sampleBits := q.bitsPerComponent, datagramSize := q.datagramSize, frameSampleCount := q.count,
        blockCount := BitVec.ofNat 16 bc, remainderSamples := BitVec.ofNat 16 rem,
        completeBlockCount := BitVec.ofNat 16 cbc, captureSeconds := q.tsSec, captureMicros := q.tsUsec }
    let b := spb * 2 * bpc
    let r := rem * 2 * bpc
    let fwd := forwardTransform s.params q.codec
    bc < 65536 ∧ (q.codec = 0 → ∀ d, fwd d = d) ∧
    exec (.emit q) s =
      .next { s with out := { Outputs.idle with
        emitOk := some true
        datagrams :=
          [packRecord s.params.ck.run fields ++ zeros (size - 42)] ++
          (List.range cbc).map (fun k => fwd (slice q.samples (k * b) ((k + 1) * b) ++ zeros (size - b))) ++
          (if 0 < rem then [fwd (slice q.samples (cbc * b) (cbc * b + r) ++ zeros (size - r))] else []) } }

/-- R75: an admitted EMIT emits exactly `1 + bc` datagrams, each of exactly `datagramSize` bytes. -/
def Obligations.EmitCountAndSizes : Prop :=
  ∀ (q : EmitRequest) (s : State), q.samples.length = q.sampleBytes → emitRefused s.params q = false →
    ∃ t, exec (.emit q) s = .next t ∧ t.out.emitOk = some true ∧
      t.out.datagrams.length = 1 + emitBlocks q ∧ (∀ d ∈ t.out.datagrams, d.length = q.datagramSize.toNat) ∧
      (q.count = 0 → t.out.datagrams.length = 1)

/-- R65, R77 (its first two sentences): the header datagram of an admitted EMIT passes the comparison, keeps the invariant,
and is usable by a receiver with the same checksum, its datagram size, room for the frame, and the codec. -/
def Obligations.EmittedHeaderIsUsable : Prop :=
  ∀ (q : EmitRequest) (s t : State) (p : Params), q.samples.length = q.sampleBytes →
    emitRefused s.params q = false → exec (.emit q) s = .next t →
    ∃ d ds, t.out.datagrams = d :: ds ∧
      let h := (unpackRecord (slice d 0 42)).toHeaderBody
      let spb := h.datagramSize.toNat / (2 * (h.sampleEncoding.toNat % 16))
      isHeaderBytes s.params.ck.run d = true ∧
      h.blockCount.toNat = h.completeBlockCount.toNat + (if 0 < h.remainderSamples.toNat then 1 else 0) ∧
      h.frameSampleCount.toNat = h.completeBlockCount.toNat * spb + h.remainderSamples.toNat ∧
      h.remainderSamples.toNat < spb ∧
      (p.dsRx = q.datagramSize → 1 ≤ q.count.toNat →
        q.count.toNat * 2 * q.bytesPerComponent.toNat ≤ p.bufBytes → codecInvDefined p q.codec = true →
        usable p h = true)

/-- R63: pack and unpack are inverse on the eleven fields, and re-packing an unpacked record gives the record exactly when
it is classified as a header. -/
def Obligations.PackAndUnpackAreInverse : Prop :=
  (∀ (v : HeaderBody) (s : State), ∃ r t u, exec (.hdrpack v) s = .next t ∧ t.out.record = some r ∧
    exec (.hdrunpack r) s = .next u ∧
    u.out.fields = some { toHeaderBody := v, checksum := s.params.ck.run (slice r 0 34) }) ∧
  (∀ (r : Bytes) (s : State), r.length = 42 → ∃ h t u w r' b,
    exec (.hdrunpack r) s = .next t ∧ t.out.fields = some h ∧
    exec (.hdrpack h.toHeaderBody) s = .next u ∧ u.out.record = some r' ∧
    exec (.classify r) s = .next w ∧ w.out.isHeader = some b ∧
    r' = slice r 0 34 ++ toLe 8 (s.params.ck.run (slice r 0 34)) ∧ (r' = r ↔ b = true))

/-- R64: every record HDRPACK produces is classified as a header, for every CK; a record is so classified only if the
checksums agree; and what follows a record in a datagram takes no part. -/
def Obligations.PackedRecordsAreHeaders : Prop :=
  (∀ (v : HeaderBody) (s : State), ∃ r t u, exec (.hdrpack v) s = .next t ∧ t.out.record = some r ∧
    exec (.classify r) s = .next u ∧ u.out.isHeader = some true) ∧
  (∀ (r : Bytes) (s : State), r.length = 42 → ∃ u, exec (.classify r) s = .next u ∧
    (u.out.isHeader = some true ↔ toLe 8 (s.params.ck.run (slice r 0 34)) = slice r 34 42)) ∧
  (∀ (ck : Bytes → U64) (r x y : Bytes), r.length = 42 → isHeaderBytes ck (r ++ x) = isHeaderBytes ck (r ++ y))

/-- R58: CK_ref of zeros is zero, leading zeros do not count, it is linear over exclusive-or, the exclusive-or of two header
records is one, and a datagram that begins with 42 zero bytes is taken for a header of zeros, which is not usable: a frame in
progress is abandoned and nothing is collected. -/
def Obligations.CkRefIsLinearAndBlindToZeros : Prop :=
  (∀ n : Nat, ckRef (zeros n) = 0) ∧
  (∀ (n : Nat) (m : Bytes), ckRef (zeros n ++ m) = ckRef m) ∧
  (∀ a b : Bytes, a.length = b.length → ckRef (List.zipWith (· ^^^ ·) a b) = ckRef a ^^^ ckRef b) ∧
  (∀ a b : Bytes, a.length = 42 → b.length = 42 → isHeaderBytes ckRef a = true → isHeaderBytes ckRef b = true →
    isHeaderBytes ckRef (List.zipWith (· ^^^ ·) a b) = true) ∧
  (∀ (i : Instr) (rest : Bytes) (s : State), receives (zeros 42 ++ rest) i → s.params.ck = .reference →
    (zeros 42 ++ rest).length = s.params.dsRx.toNat →
    exec i s = .next { s with
      hdr := Header.zero
      rsm := .awaitingHeader
      out := { Outputs.idle with
        disp := some .hdrUnusable
        abandoned := some (decide (s.rsm = .collecting))
        frameValid := some false } })

/-- R57: CK_ref of any bytes is the table-driven form from 0, byte by byte, with no final change; each of its steps equals the
bitwise one; and the table's spot values are the spec's. -/
def Obligations.CkRefTableDrivenFormAgrees : Prop :=
  (∀ data : Bytes, ckRef data =
    data.foldl (fun (crc : U64) (b : Byte) => crcTable ((crc ^^^ b.zeroExtend 64).truncate 8) ^^^ (crc >>> 8)) 0) ∧
  (∀ (crc : U64) (b : Byte),
    crcByte crc b = crcTable ((crc ^^^ b.zeroExtend 64).truncate 8) ^^^ (crc >>> 8)) ∧
  crcTable 0 = 0x0000000000000000#64 ∧ crcTable 1 = 0x7ad870c830358979#64 ∧ crcTable 2 = 0xf5b0e190606b12f2#64 ∧
  crcTable 3 = 0x8f689158505e9b8b#64 ∧ crcTable 128 = 0x95ac9329ac4bc9b5#64 ∧
  crcTable 254 = 0x536fa08fdfd90e51#64 ∧ crcTable 255 = 0x29b7d047efec8728#64

/-- R66: the nine checks, with every quantity a natural number computed without wrap-around. -/
def Obligations.UsableIsTheNineChecks : Prop :=
  ∀ (p : Params) (h : HeaderBody),
    let bpc := h.sampleEncoding.toNat % 16
    let codec := h.sampleEncoding.extractLsb' 4 4
    let spb := p.dsRx.toNat / (2 * bpc)
    usable p h = true ↔
      bpc ≠ 0 ∧ h.datagramSize.toNat = p.dsRx.toNat ∧ 1 ≤ spb ∧ 1 ≤ h.blockCount.toNat ∧
      h.blockCount.toNat = h.completeBlockCount.toNat + (if 0 < h.remainderSamples.toNat then 1 else 0) ∧
      h.frameSampleCount.toNat = h.completeBlockCount.toNat * spb + h.remainderSamples.toNat ∧
      h.remainderSamples.toNat < spb ∧ h.frameSampleCount.toNat * 2 * bpc ≤ p.bufBytes ∧
      (codec = 0 ∨ ∃ e, e ∈ p.codecInv ∧ e.nibble = codec)

/-- R80: a datagram of another size is dropped, whatever its bytes, and no state changes. -/
def Obligations.WrongSizeIsDropped : Prop :=
  ∀ (i : Instr) (d : Bytes) (s : State), receives d i → d.length ≠ s.params.dsRx.toNat →
    exec i s = .next { s with out := { Outputs.idle with
      disp := some .dropSize, abandoned := some false, frameValid := some false } }

/-- R82: a datagram that passes the comparison abandons the frame in progress and is adopted, all twelve fields, whether or
not it is usable and whichever frame it describes; nothing is output for the frame lost. -/
def Obligations.HeaderAlwaysWins : Prop :=
  ∀ (i : Instr) (d : Bytes) (s : State), receives d i → d.length = s.params.dsRx.toNat →
    s.params.ck.run (slice d 0 34) = le 64 (slice d 34 42) →
    ∃ t u, exec i s = .next t ∧ exec (.hdrunpack (slice d 0 42)) s = .next u ∧ u.out.fields = some t.hdr ∧
      t.out.abandoned = some (decide (s.rsm = .collecting)) ∧ t.out.frameValid = some false ∧ t.out.frame = none ∧
      t.buf = s.buf ∧ (t.rsm = .collecting → t.blocksRemaining = t.hdr.blockCount ∧ t.nextOffset = 0)

/-- R83: a usable header abandons the frame in progress, is adopted, and starts a collection. -/
def Obligations.UsableHeaderIsAdopted : Prop :=
  ∀ (i : Instr) (d : Bytes) (s : State), receives d i → d.length = s.params.dsRx.toNat →
    s.params.ck.run (slice d 0 34) = le 64 (slice d 34 42) →
    usable s.params (unpackRecord (slice d 0 42)).toHeaderBody = true →
    exec i s = .next { s with
      hdr := unpackRecord (slice d 0 42)
      blocksRemaining := (unpackRecord (slice d 0 42)).blockCount
      nextOffset := 0
      rsm := .collecting
      out := { Outputs.idle with
        disp := some .hdrAdopted
        abandoned := some (decide (s.rsm = .collecting))
        frameValid := some false } }

/-- R84: a header that is not usable abandons the frame in progress, is adopted, and nothing is collected. -/
def Obligations.UnusableHeaderCollectsNothing : Prop :=
  ∀ (i : Instr) (d : Bytes) (s : State), receives d i → d.length = s.params.dsRx.toNat →
    s.params.ck.run (slice d 0 34) = le 64 (slice d 34 42) →
    usable s.params (unpackRecord (slice d 0 42)).toHeaderBody = false →
    exec i s = .next { s with
      hdr := unpackRecord (slice d 0 42)
      rsm := .awaitingHeader
      out := { Outputs.idle with
        disp := some .hdrUnusable
        abandoned := some (decide (s.rsm = .collecting))
        frameValid := some false } }

/-- R85: a payload datagram in AWAITING_HEADER is discarded, and no state changes. -/
def Obligations.PayloadWithoutHeaderIsDiscarded : Prop :=
  ∀ (i : Instr) (d : Bytes) (s : State), receives d i → d.length = s.params.dsRx.toNat →
    s.params.ck.run (slice d 0 34) ≠ le 64 (slice d 34 42) → s.rsm = .awaitingHeader →
    exec i s = .next { s with out := { Outputs.idle with
      disp := some .payNosync, abandoned := some false, frameValid := some false } }

/-- R88: where the inverse transform has no result, no state changes. -/
def Obligations.CodecFailureChangesNothing : Prop :=
  ∀ (i : Instr) (d : Bytes) (s : State), s.inv = true → receives d i → d.length = s.params.dsRx.toNat →
    s.params.ck.run (slice d 0 34) ≠ le 64 (slice d 34 42) → s.rsm = .collecting →
    inverseTransform s.params (s.hdr.sampleEncoding.extractLsb' 4 4) d = none →
    exec i s = .next { s with out := { Outputs.idle with
      disp := some .payCodecFail, abandoned := some false, frameValid := some false } }

/-- R86, R89: a payload datagram in COLLECTING is copied. The block's length is computed as R86 says (both its forms agree),
its bytes lie from `next_offset` upward in BUF, every other byte of BUF is as before, and the counters move. Where the
header's codec nibble is 0 the block is the datagram itself (R87). -/
def Obligations.PayloadBlockIsStored : Prop :=
  ∀ (i : Instr) (d blk : Bytes) (s : State), s.inv = true → receives d i → d.length = s.params.dsRx.toNat →
    s.params.ck.run (slice d 0 34) ≠ le 64 (slice d 34 42) → s.rsm = .collecting →
    inverseTransform s.params (s.hdr.sampleEncoding.extractLsb' 4 4) d = some blk →
    let bpc := s.hdr.sampleEncoding.toNat % 16
    let spb := s.params.dsRx.toNat / (2 * bpc)
    let rem := s.hdr.remainderSamples.toNat
    let idx := s.hdr.blockCount.toNat - s.blocksRemaining.toNat
    let ns := if idx < s.hdr.completeBlockCount.toNat then spb else rem
    let n := ns * 2 * bpc
    let off := s.nextOffset.toNat
    (s.hdr.sampleEncoding.extractLsb' 4 4 = 0 → blk = d) ∧
    ns = (if s.blocksRemaining.toNat = 1 ∧ 0 < rem then rem else spb) ∧ 2 * bpc ≤ n ∧ n ≤ s.params.dsRx.toNat ∧
    ∃ t, exec i s = .next t ∧
      t.nextOffset.toNat = off + n ∧ t.blocksRemaining.toNat = s.blocksRemaining.toNat - 1 ∧ Memory.wf t.buf = true ∧
      (∀ k, k < n → blk[k]? = some (Memory.read t.buf (off + k))) ∧
      (∀ a, a < off ∨ off + n ≤ a → Memory.read t.buf a = Memory.read s.buf a) ∧
      t.hdr = s.hdr ∧ t.params = s.params ∧ t.port = s.port ∧ t.freeCount = s.freeCount

/-- R90: the last block completes the frame, which is all of `hdr` and `BUF[0 .. frameBytes)` (what BUF held below
`next_offset`, then the block), and the block awaits a header; any other block reports that it is stored, and nothing is
returned. -/
def Obligations.LastBlockReturnsFrame : Prop :=
  ∀ (i : Instr) (d blk : Bytes) (s : State), s.inv = true → receives d i → d.length = s.params.dsRx.toNat →
    s.params.ck.run (slice d 0 34) ≠ le 64 (slice d 34 42) → s.rsm = .collecting →
    inverseTransform s.params (s.hdr.sampleEncoding.extractLsb' 4 4) d = some blk →
    let total := s.hdr.frameSampleCount.toNat * 2 * (s.hdr.sampleEncoding.toNat % 16)
    let off := s.nextOffset.toNat
    let bytes := Memory.readBytes s.buf 0 off ++ slice blk 0 (total - off)
    if s.blocksRemaining.toNat = 1 then
      off ≤ total ∧ ∃ m, exec i s = .next { s with
          buf := m
          nextOffset := BitVec.ofNat 37 total
          blocksRemaining := 0
          rsm := .awaitingHeader
          out := { Outputs.idle with
            disp := some .frameDone
            abandoned := some false
            frameValid := some true
            frame := some { hdr := s.hdr, data := bytes } } } ∧
        Memory.readBytes m 0 total = bytes ∧
        (∀ a, a < off ∨ total ≤ a → Memory.read m a = Memory.read s.buf a)
    else
      ∃ t, exec i s = .next t ∧ t.rsm = .collecting ∧ t.out =
        { Outputs.idle with disp := some .payStored, abandoned := some false, frameValid := some false }

/-- R92: the transitions of `rsm_state`, complete, with the outputs of each and the state each leaves alone; and nothing but
a delivered datagram and reset changes `rsm_state`. -/
def Obligations.TransitionTable : Prop :=
  (∀ s t : State, step s = .next t → t.rsm ≠ s.rsm →
    (∃ es, s.port = .rst :: es) ∨ ∃ tx es d i, s.port = .run tx :: es ∧ s.decode tx = .ok i ∧ receives d i) ∧
  ∀ (i : Instr) (d : Bytes) (s : State), s.inv = true → receives d i →
    ∃ t, exec i s = .next t ∧
      let row := fun (st : RsmState) (dp : Disp) (ab fv : Bool) =>
        t.rsm = st ∧ t.out.disp = some dp ∧ t.out.abandoned = some ab ∧ t.out.frameValid = some fv
      let keepsHdr := t.hdr = s.hdr
      let keepsCounters := t.blocksRemaining = s.blocksRemaining ∧ t.nextOffset = s.nextOffset
      let keepsBuf := t.buf = s.buf
      if d.length ≠ s.params.dsRx.toNat then row s.rsm .dropSize false false ∧ keepsHdr ∧ keepsCounters ∧ keepsBuf
      else if isHeaderBytes s.params.ck.run d then
        if usable s.params (unpackRecord (slice d 0 42)).toHeaderBody then
          row .collecting .hdrAdopted (decide (s.rsm = .collecting)) false ∧ keepsBuf
        else row .awaitingHeader .hdrUnusable (decide (s.rsm = .collecting)) false ∧ keepsCounters ∧ keepsBuf
      else if s.rsm = .awaitingHeader then
        row .awaitingHeader .payNosync false false ∧ keepsHdr ∧ keepsCounters ∧ keepsBuf
      else if inverseTransform s.params (codecOf s.hdr.toHeaderBody) d = none then
        row .collecting .payCodecFail false false ∧ keepsHdr ∧ keepsCounters ∧ keepsBuf
      else if 1 < s.blocksRemaining.toNat then row .collecting .payStored false false ∧ keepsHdr
      else row .awaitingHeader .frameDone false true ∧ keepsHdr

/-- R18, R25, R94: the invariant (legal parameters, BUF in canonical form and inside its bounds, and while collecting a usable
header, a count from 1 to `blockCount`, and an offset of as many full blocks as are stored) is kept by every step, whatever
the next input. -/
def Obligations.StepKeepsInvariant : Prop :=
  ∀ s t : State, s.inv = true → step s = .next t → t.inv = true

/-- R22 (`rsm_state` after reset) and the model's choices for the rest (notes/assumptions/2.md, 4.md, 5.md): the state after
reset awaits a header and meets the invariant. -/
def Obligations.ResetAwaitsHeader : Prop :=
  State.reset.rsm = .awaitingHeader ∧ State.reset.inv = true

/-- R99: nothing is fatal. In a state that meets the invariant no step faults, and every transaction answers a next state, one
that again meets the invariant. -/
def Obligations.NothingIsFatal : Prop :=
  (∀ (s : State) (f : Fault), s.inv = true → step s ≠ .fault f) ∧
  (∀ (s : State) (i : Instr), s.inv = true → i.wellFormed s.params.ck.run = true →
    ∃ t, exec i s = .next t ∧ t.inv = true)

/-- R113: the reset input, in any state: AWAITING_HEADER, no output for the frame lost, the parameters kept, and the next
input stands next. -/
def Obligations.ResetInputAwaitsHeader : Prop :=
  ∀ (s : State) (es : List PortEvent), s.port = .rst :: es →
    ∃ t, step s = .next t ∧ t.rsm = .awaitingHeader ∧ t.out = Outputs.idle ∧ t.params = s.params ∧ t.port = es

/-- R35, R50: the step takes the transaction that stands first, decodes it with the block's own checksum function, datagram
size and count, and runs exactly that instruction; the inputs after it stay as they are. -/
def Obligations.StepRunsDecodedInstruction : Prop :=
  ∀ (s : State) (tx : Transaction) (es : List PortEvent) (i : Instr), s.port = .run tx :: es →
    decode s.params.ck.run s.params.dsRx (remainderDue s) tx = .ok i → step s = exec i { s with port := es }

/-- R129: with nothing on the port a step changes nothing; and what is no transaction is refused by its name
(notes/assumptions/7.md, 14.md: the model's form of the host interface). -/
def Obligations.StepIdlesOrRefusesWithoutTransaction : Prop :=
  (∀ s : State, s.port = [] → step s = .next s) ∧
  (∀ (s : State) (tx : Transaction) (es : List PortEvent) (why : DecodeError), s.port = .run tx :: es →
    decode s.params.ck.run s.params.dsRx (remainderDue s) tx = .error why → step s = .refused (.noTransaction why))

/-- R50, R51, R49: decoding is the inverse of encoding on every well-formed instruction, with any bytes after a command's
operands, and for the wire formats at the receiver's datagram size and count. How a command carries its operands is the
model's choice, notes/assumptions/8.md. -/
def Obligations.DecodeInvertsEncode : Prop :=
  ∀ (ck : Bytes → U64) (ds : U16) (rem : Bool) (i : Instr), i.wellFormed ck = true →
    match encode i with
    | .command bs => ∀ rest, decode ck ds rem (.command (bs ++ rest)) = .ok i
    | .record bs => decode ck ds rem (.record bs) = .ok i
    | .datagram bs =>
      bs.length = ds.toNat → (∀ d, i = .pd d → rem = false) → (∀ d, i = .pr d → rem = true) →
        decode ck ds rem (.datagram bs) = .ok i

/-- Words written out from R50's table, with operands as the model carries them (notes/assumptions/8.md). -/
def Obligations.WordsFromTheEncodingDecode : Prop :=
  decodeCommand [0x00#8, 0x03#8, 0x00#8, 0x61#8, 0x62#8, 0x63#8] = .ok (.cksum 3 [0x61#8, 0x62#8, 0x63#8]) ∧
  decodeCommand (0x03#8 :: zeros 42) = .ok (.classify (zeros 42)) ∧
  decodeCommand [0x05#8, 0x02#8, 0x00#8, 0xaa#8, 0xbb#8] = .ok (.accept 2 [0xaa#8, 0xbb#8]) ∧
  decodeCommand [0x06#8] = .ok .reserved6 ∧ decodeCommand [0x07#8] = .ok .reserved7 ∧
  decodeCommand [0x08#8] = .error .selectTooWide

/-- The instructions that are no `accept` change no state at all, every byte of BUF, every register, parameter and input
being as before; and their outputs are functions of their operands (and of the parameters, which are fixed), whatever the
state. Of the five operations R21 says so, of the reserved selects R52; that a bare record (`h`) has no effect on the state is
the model's choice, notes/assumptions/9.md. -/
def Obligations.StatelessInstructionsFrame : Prop :=
  ∀ (i : Instr) (s u : State), stateless i = true → s.params = u.params →
    ∃ t v, exec i s = .next t ∧ exec i u = .next v ∧ s.sameButOut t ∧ v.out = t.out

/-- R31, R98 (the column "State changed"), in every state: what a delivered datagram leaves alone. Stored bytes lie in
`[next_offset, next_offset + blockBytes)`, the expressions the meaning uses. -/
def Obligations.ReceiveFrame : Prop :=
  ∀ (i : Instr) (d : Bytes) (s t : State), receives d i → exec i s = .next t →
    t.params = s.params ∧ t.port = s.port ∧ t.freeCount = s.freeCount ∧
    (∀ a, a < s.nextOffset.toNat ∨ s.nextOffset.toNat + blockBytes s ≤ a →
      Memory.read t.buf a = Memory.read s.buf a) ∧
    (t.out.disp ≠ some .payStored → t.out.disp ≠ some .frameDone → ∀ a, Memory.read t.buf a = Memory.read s.buf a) ∧
    (t.out.disp ≠ some .hdrAdopted → t.out.disp ≠ some .hdrUnusable → t.hdr = s.hdr) ∧
    (t.out.disp ≠ some .hdrAdopted → t.out.disp ≠ some .payStored → t.out.disp ≠ some .frameDone →
      t.blocksRemaining = s.blocksRemaining ∧ t.nextOffset = s.nextOffset) ∧
    (t.out.disp ≠ some .hdrAdopted → t.out.disp ≠ some .hdrUnusable → t.out.disp ≠ some .frameDone → t.rsm = s.rsm)

/-- R5, R49, R79: what the transport delivers is an ACCEPT of it: in every state, a datagram on the receive interface and the
command that accepts it do the same. That the wire formats are instructions of their own is the model's choice,
notes/assumptions/9.md. -/
def Obligations.WireDeliveryIsAccept : Prop :=
  ∀ (d : Bytes) (s : State), d.length ≤ 65535 →
    runTransaction (.datagram d) s = runTransaction (encode (.accept (BitVec.ofNat 16 d.length) d)) s

/-- A datagram of the receiver's size is a header datagram exactly when the checksums agree, and a payload datagram otherwise
(30_encoding.md sections 1 and 3). That a payload datagram is read as PR exactly where a frame is being collected and the
blocks stored are not fewer than its full blocks, and as PD otherwise, is the model's choice, notes/assumptions/15.md. -/
def Obligations.WireDecodingIsTheComparison : Prop :=
  (∀ (ck : Bytes → U64) (ds : U16) (rem : Bool) (d : Bytes), d.length = ds.toNat →
    (ck (slice d 0 34) = le 64 (slice d 34 42) → decodeDatagram ck ds rem d = .ok (.hd d)) ∧
    (ck (slice d 0 34) ≠ le 64 (slice d 34 42) →
      decodeDatagram ck ds rem d = .ok (if rem then .pr d else .pd d))) ∧
  (∀ (s : State) (d : Bytes), d.length = s.params.dsRx.toNat →
    s.params.ck.run (slice d 0 34) ≠ le 64 (slice d 34 42) →
    let idx := s.hdr.blockCount.toNat - s.blocksRemaining.toNat
    s.decode (.datagram d) =
      .ok (if s.rsm = .collecting ∧ s.hdr.completeBlockCount.toNat ≤ idx then .pr d else .pd d))

/-- R35: the send side and the receive side share no state, so a send-side operation and an ACCEPT commute: either order
gives each the same results and the same state. -/
def Obligations.SendAndReceiveCommute : Prop :=
  ∀ (i j : Instr) (d : Bytes) (s t : State), stateless i = true → receives d j → exec j s = .next t →
    ∃ t' u u', exec i t = .next t' ∧ exec i s = .next u ∧ exec j u = .next u' ∧
      u'.out = t.out ∧ t'.out = u.out ∧ { t' with out := Outputs.idle } = { u' with out := Outputs.idle }

/-- R23, R24, R39: dead values cannot be observed. From two states that differ in dead values alone (among them what reset
leaves unspecified), equal inputs give equal outputs, and states that again differ in dead values alone. -/
def Obligations.DeadValuesAreUnobservable : Prop :=
  ∀ s u : State, s.inv = true → u.inv = true → s.sameLive u →
    (∀ t, step s = .next t → ∃ v, step u = .next v ∧ t.sameLive v) ∧
    (∀ r, step s = .refused r → step u = .refused r)

/-- R39, R95: the frame that completes after a usable header is the blocks stored since, in the order in which they arrived
and whatever they are, and holds no other byte; datagrams dropped in between (of a wrong size, or without an inverse
transform) leave no trace. -/
def Obligations.FrameIsArrivalsInOrder : Prop :=
  ∀ (s : State) (hd d : Bytes) (ds blks : List Bytes) (rest : List PortEvent),
    s.inv = true → s.port = deliveries (hd :: ds ++ [d]) ++ rest →
    takesHeaderPath s.params hd = true →
    let h := unpackRecord (slice hd 0 42)
    let stores := storable s.params (codecOf h.toHeaderBody)
    usable s.params h.toHeaderBody = true →
    (∀ x ∈ ds, takesHeaderPath s.params x = false ∧ x.length ≤ 65535) → stores d = true →
    (ds.filter stores).length + 1 = h.blockCount.toNat →
    ((ds ++ [d]).filter stores).map (inverseTransform s.params (codecOf h.toHeaderBody)) = blks.map some →
    ∃ outs t, trace (2 + ds.length) s = some (outs, t) ∧ (∀ o ∈ outs.dropLast, o.frame = none) ∧
      t.out.disp = some .frameDone ∧
      t.out.frame = some { hdr := h, data := storedBytes s.params h.toHeaderBody 0 blks } ∧
      (storedBytes s.params h.toHeaderBody 0 blks).length = frameBytes h.toHeaderBody ∧
      t.rsm = .awaitingHeader ∧ t.port = rest

/-- R94, (a) to (e), after any datagrams that do not complete the frame: the header is usable, `blocks_remaining` is what is
left of its count, `next_offset` is as many full blocks as are stored, the due block ends inside the frame and BUF, at the
frame's end exactly when it is the last, and BUF below `next_offset` holds the stored blocks in arrival order. -/
def Obligations.BlocksAreStoredInArrivalOrder : Prop :=
  ∀ (s : State) (hd : Bytes) (ds blks : List Bytes) (rest : List PortEvent),
    s.inv = true → s.port = deliveries (hd :: ds) ++ rest →
    takesHeaderPath s.params hd = true →
    let h := unpackRecord (slice hd 0 42)
    let stores := storable s.params (codecOf h.toHeaderBody)
    usable s.params h.toHeaderBody = true →
    (∀ x ∈ ds, takesHeaderPath s.params x = false ∧ x.length ≤ 65535) →
    (ds.filter stores).length < h.blockCount.toNat →
    (ds.filter stores).map (inverseTransform s.params (codecOf h.toHeaderBody)) = blks.map some →
    ∃ outs t, trace (1 + ds.length) s = some (outs, t) ∧ t.rsm = .collecting ∧ t.port = rest ∧
      t.hdr = h ∧ usable t.params t.hdr.toHeaderBody = true ∧
      1 ≤ t.blocksRemaining.toNat ∧ t.blocksRemaining.toNat + blks.length = h.blockCount.toNat ∧
      blks.length ≤ h.completeBlockCount.toNat ∧
      t.nextOffset.toNat = blks.length * fullBlockBytes s.params h.toHeaderBody ∧
      t.nextOffset.toNat + blockBytes t ≤ frameBytes h.toHeaderBody ∧ frameBytes h.toHeaderBody ≤ s.params.bufBytes ∧
      (t.nextOffset.toNat + blockBytes t = frameBytes h.toHeaderBody ↔ t.blocksRemaining.toNat = 1) ∧
      Memory.readBytes t.buf 0 t.nextOffset.toNat = storedBytes s.params h.toHeaderBody 0 blks

/-- R96: round trip without loss. The datagrams of an admitted EMIT, delivered once each and in order to a receiver with the
same checksum and size, room for the frame and a codec that inverts the sender's on the frame's blocks, none of the payload
datagrams passing the comparison, return the batch under the header EMIT packed, from any state. -/
def Obligations.RoundTripWithoutLoss : Prop :=
  ∀ (s tx u : State) (q : EmitRequest) (rest : List PortEvent),
    s.inv = true → q.samples.length = q.sampleBytes → exec (.emit q) tx = .next u → u.out.emitOk = some true →
    s.params.ck = tx.params.ck → s.params.dsRx = q.datagramSize → 1 ≤ q.count.toNat →
    q.sampleBytes ≤ s.params.bufBytes → codecInvDefined s.params q.codec = true →
    (∀ d ∈ emitPayload tx.params { q with codec := 0 },
      inverseTransform s.params q.codec (forwardTransform tx.params q.codec d) = some d) →
    (∀ d ∈ u.out.datagrams.tail, isHeaderBytes s.params.ck.run d = false) →
    s.port = deliveries u.out.datagrams ++ rest →
    ∃ outs t, trace (1 + emitBlocks q) s = some (outs, t) ∧
      outs.map (·.disp) =
        some .hdrAdopted :: (List.replicate (emitBlocks q - 1) (some .payStored) ++ [some .frameDone]) ∧
      t.out.frame = some
        { hdr := { toHeaderBody := emitFields q, checksum := tx.params.ck.run (packBody (emitFields q)) }
          data := q.samples } ∧
      t.rsm = .awaitingHeader ∧ t.port = rest

/-- R97: resynchronisation. If after a usable header fewer than its count of the datagrams that follow are stored before the
next header, its frame is never returned and that header's transaction reports the abandonment, usable or not; and where
that header is the first datagram of an EMIT that meets R96's conditions, its frame is returned complete. -/
def Obligations.ResynchronisesAfterLoss : Prop :=
  ∀ (s : State) (hd : Bytes) (lost : List Bytes), s.inv = true → takesHeaderPath s.params hd = true →
    let h := unpackRecord (slice hd 0 42)
    usable s.params h.toHeaderBody = true →
    (∀ d ∈ lost, takesHeaderPath s.params d = false ∧ d.length ≤ 65535) →
    (lost.filter (storable s.params (codecOf h.toHeaderBody))).length < h.blockCount.toNat →
    (∀ (next : Bytes) (rest : List PortEvent), takesHeaderPath s.params next = true →
      s.port = deliveries (hd :: lost ++ [next]) ++ rest →
      ∃ outs t, trace (2 + lost.length) s = some (outs, t) ∧ (∀ o ∈ outs, o.frame = none) ∧
        t.out.abandoned = some true ∧ t.hdr = unpackRecord (slice next 0 42)) ∧
    (∀ (tx u : State) (q : EmitRequest) (rest : List PortEvent),
      q.samples.length = q.sampleBytes → exec (.emit q) tx = .next u → u.out.emitOk = some true →
      s.params.ck = tx.params.ck → s.params.dsRx = q.datagramSize → 1 ≤ q.count.toNat →
      q.sampleBytes ≤ s.params.bufBytes → codecInvDefined s.params q.codec = true →
      (∀ d ∈ emitPayload tx.params { q with codec := 0 },
        inverseTransform s.params q.codec (forwardTransform tx.params q.codec d) = some d) →
      (∀ d ∈ u.out.datagrams.tail, isHeaderBytes s.params.ck.run d = false) →
      s.port = deliveries (hd :: lost ++ u.out.datagrams) ++ rest →
      ∃ outs t, trace (2 + lost.length + emitBlocks q) s = some (outs, t) ∧
        (∀ o ∈ outs.dropLast, o.frame = none) ∧
        (outs[1 + lost.length]?).map (·.abandoned) = some (some true) ∧
        t.out.frame = some
          { hdr := { toHeaderBody := emitFields q, checksum := tx.params.ck.run (packBody (emitFields q)) }
            data := q.samples })

/-- R94 (d), R16, R93: while collecting, the due block holds at least one sample and at most a datagram, ends inside the frame
and inside BUF, and ends exactly at the frame's end when it is the last; the offset cannot wrap. -/
def Obligations.DueBlockStaysInsideFrame : Prop :=
  ∀ s : State, s.inv = true → s.rsm = .collecting →
    2 * bpcOf s.hdr.toHeaderBody ≤ blockBytes s ∧ 0 < blockBytes s ∧ blockBytes s ≤ s.params.dsRx.toNat ∧
    s.nextOffset.toNat + blockBytes s ≤ frameBytes s.hdr.toHeaderBody ∧
    frameBytes s.hdr.toHeaderBody ≤ s.params.bufBytes ∧ s.nextOffset.toNat + blockBytes s < 2 ^ 37 ∧
    (s.nextOffset.toNat + blockBytes s = frameBytes s.hdr.toHeaderBody ↔ s.blocksRemaining.toNat = 1)

/-- R67, R39: a usable header's block lengths are within bounds and sum to the frame. -/
def Obligations.UsableHeaderTilesItsFrame : Prop :=
  ∀ (p : Params) (h : HeaderBody), p.legal = true → usable p h = true →
    1 ≤ h.blockCount.toNat ∧ frameBytes h ≤ p.bufBytes ∧
    (∀ idx, idx < h.blockCount.toNat → 1 ≤ blockLength p h idx ∧ blockLength p h idx ≤ p.dsRx.toNat) ∧
    ((List.range h.blockCount.toNat).map (blockLength p h)).sum = frameBytes h

/-- R10, R98: the codes of the dispositions and of `rsm_state`; code 7 is never produced and no two share a code. -/
def Obligations.StatusCodes : Prop :=
  Disp.dropSize.code = 0 ∧ Disp.hdrAdopted.code = 1 ∧ Disp.hdrUnusable.code = 2 ∧ Disp.payNosync.code = 3 ∧
  Disp.payStored.code = 4 ∧ Disp.frameDone.code = 5 ∧ Disp.payCodecFail.code = 6 ∧
  (∀ d : Disp, d.code ≠ 7) ∧ (∀ d e : Disp, d.code = e.code → d = e) ∧
  (∀ s : State, s.rsmStatus = 0 ↔ s.rsm = .awaitingHeader) ∧ (∀ s : State, s.rsmStatus = 1 ↔ s.rsm = .collecting)

/-- R18: the parameters are never written: no step, of any instruction or of the reset input, changes them. -/
def Obligations.ParametersNeverChange : Prop :=
  ∀ s t : State, step s = .next t → t.params = s.params

/-- R12: `hdr` is written in one place. If a step changes it, the step was the reset input, or a datagram of the receiver's size
that passes the comparison, and `hdr` then holds all twelve fields of its first 42 bytes. -/
def Obligations.HeaderRegisterIsWrittenByHeaderPathOnly : Prop :=
  ∀ s t : State, step s = .next t → t.hdr ≠ s.hdr →
    (∃ es, s.port = .rst :: es) ∨
    (∃ tx es d i, s.port = .run tx :: es ∧ s.decode tx = .ok i ∧ receives d i ∧
      d.length = s.params.dsRx.toNat ∧ isHeaderBytes s.params.ck.run d = true ∧ t.hdr = unpackRecord (slice d 0 42) ∧
      (t.out.disp = some .hdrAdopted ∨ t.out.disp = some .hdrUnusable))

/-- R13, R109, R92: only a usable header leaves AWAITING_HEADER, and only a completed frame, an unusable header or reset
returns to it. -/
def Obligations.OnlyTheseEventsChangeRsmState : Prop :=
  ∀ s t : State, step s = .next t →
    (s.rsm = .awaitingHeader → t.rsm = .collecting →
      t.out.disp = some .hdrAdopted ∧ usable t.params t.hdr.toHeaderBody = true ∧ t.nextOffset = 0 ∧
      t.blocksRemaining = t.hdr.blockCount) ∧
    (s.rsm = .collecting → t.rsm = .awaitingHeader →
      (∃ es, s.port = .rst :: es) ∨ t.out.disp = some .hdrUnusable ∨
      (t.out.disp = some .frameDone ∧ s.blocksRemaining.toNat = 1))

/-- R17, R90: a frame is returned exactly with `frame_valid` = 1 and FRAME_DONE, and only from COLLECTING with one block
remaining; the frame carries `hdr` and has `frameBytes(hdr)` bytes. -/
def Obligations.FrameIsReturnedOnlyByItsLastBlock : Prop :=
  ∀ (i : Instr) (s t : State), exec i s = .next t →
    (t.out.frameValid = some true ↔ t.out.disp = some .frameDone) ∧
    (t.out.frame.isSome = true ↔ t.out.disp = some .frameDone) ∧
    (t.out.disp = some .frameDone →
      s.rsm = .collecting ∧ t.rsm = .awaitingHeader ∧ s.blocksRemaining.toNat = 1 ∧ ∃ f, t.out.frame = some f ∧
        f.hdr = s.hdr ∧ f.data.length = frameBytes s.hdr.toHeaderBody)

/-- R31, R44, R48: bytes past 42 on the header path, and past the block length (and the 42 bytes of the comparison) on the
payload path with no codec, are never read for their value. -/
def Obligations.PaddingIsNeverRead : Prop :=
  ∀ (i j : Instr) (d e : Bytes) (s : State), receives d i → receives e j → d.length = e.length →
    slice d 0 42 = slice e 0 42 →
    (isHeaderBytes s.params.ck.run d = true → exec i s = exec j s) ∧
    (codecOf s.hdr.toHeaderBody = 0 → slice d 0 (blockBytes s) = slice e 0 (blockBytes s) → exec i s = exec j s)

/-- R87: the block is the datagram itself where the codec nibble is 0; a nibble for which `CodecInv` is not defined has no
result for any datagram; and with `CodecInv` empty, as it is by default, only nibble 0 is ever collected. -/
def Obligations.PayloadTransformIsChosenByNibble : Prop :=
  (∀ (p : Params) (d : Bytes), inverseTransform p 0 d = some d) ∧
  (∀ (p : Params) (c : U4) (d : Bytes), c ≠ 0 → (¬∃ e, e ∈ p.codecInv ∧ e.nibble = c) → inverseTransform p c d = none) ∧
  (∀ s : State, s.inv = true → s.rsm = .collecting → s.params.codecInv = [] →
    s.hdr.sampleEncoding.extractLsb' 4 4 = 0)

/-- R49: a datagram of the receiver's size is a header datagram exactly when the checksums agree, and a payload datagram
otherwise, one of the two forms R48 gives a block. -/
def Obligations.DatagramIsHeaderOrPayload : Prop :=
  ∀ (ck : Bytes → U64) (ds : U16) (rem : Bool) (d : Bytes), d.length = ds.toNat →
    (decodeDatagram ck ds rem d = .ok (.hd d) ↔ ck (slice d 0 34) = le 64 (slice d 34 42)) ∧
    (ck (slice d 0 34) ≠ le 64 (slice d 34 42) →
      decodeDatagram ck ds rem d = .ok (.pd d) ∨ decodeDatagram ck ds rem d = .ok (.pr d))
end

