-- ==== Sys2Proof/Laws/Bytes.lean ====
section
/-!
SUPPORT. The laws of byte sequences and little-endian numbers (R130, R42).
-/
namespace Sys2Proof

@[simp] theorem zeros_length (n : Nat) : (zeros n).length = n := by simp [zeros]

@[simp] theorem toLeNat_length (n v : Nat) : (toLeNat n v).length = n := by
  induction n generalizing v with
  | zero => rfl
  | succ n ih => simp [toLeNat, ih]

@[simp] theorem toLe_length (n : Nat) {w : Nat} (v : BitVec w) : (toLe n v).length = n := toLeNat_length _ _

@[simp] theorem resize_length (n : Nat) (b : Bytes) : (resize n b).length = n := by
  simp only [resize, List.length_append, List.length_take, zeros_length]
  omega

/-- A sequence of the wanted length is unchanged. -/
theorem resize_of_length {n : Nat} {b : Bytes} (h : b.length = n) : resize n b = b := by
  subst h
  simp [resize, zeros]

theorem slice_length (b : Bytes) (i j : Nat) : (slice b i j).length = min (j - i) (b.length - i) := by
  simp [slice]

@[simp] theorem slice_zero_length (b : Bytes) : slice b 0 b.length = b := by simp [slice]

theorem slice_getElem (b : Bytes) (i j : Nat) {k : Nat} (hk : k < (slice b i j).length) :
    (slice b i j)[k] = b[i + k]'(by simp only [slice_length] at hk; omega) := by
  simp [slice]

/-- A slice that ends inside the first part does not see the second. -/
theorem slice_append_left {a : Bytes} (c : Bytes) {i j : Nat} (h : j ≤ a.length) :
    slice (a ++ c) i j = slice a i j := by
  by_cases hij : i ≤ a.length
  · simp only [slice, List.drop_append_of_le_length hij]
    rw [List.take_append_of_le_length (by simp; omega)]
  · have : j - i = 0 := by omega
    simp [slice, this]

/-- A slice that starts after the first part sees only the second. -/
theorem slice_append_right {a : Bytes} (c : Bytes) {i j : Nat} (h : a.length ≤ i) :
    slice (a ++ c) i j = slice c (i - a.length) (j - a.length) := by
  simp only [slice]
  rw [List.drop_append, List.drop_eq_nil_of_le h, List.nil_append]
  congr 1
  omega

/-- The first part of a concatenation, as a slice. -/
theorem slice_first {a : Bytes} (c : Bytes) {j : Nat} (h : a.length = j) : slice (a ++ c) 0 j = a := by
  subst h
  simp [slice]

/-- A slice past the first part, at offsets counted from its end. -/
theorem slice_skip {a : Bytes} (c : Bytes) {n : Nat} (i j : Nat) (h : a.length = n) :
    slice (a ++ c) (n + i) (n + j) = slice c i j := by
  rw [slice_append_right c (by omega), h]
  congr 1 <;> omega

/-- Adjacent slices join. -/
theorem slice_append_slice (b : Bytes) {i j k : Nat} (hij : i ≤ j) (hjk : j ≤ k) :
    slice b i j ++ slice b j k = slice b i k := by
  simp only [slice]
  have h1 : k - i = (j - i) + (k - j) := by omega
  rw [h1, List.take_add, List.drop_drop]
  congr 3
  omega

theorem slice_slice (b : Bytes) {i j k l : Nat} (h : i + l ≤ j) :
    slice (slice b i j) k l = slice b (i + k) (i + l) := by
  simp only [slice, List.drop_take, List.drop_drop, List.take_take]
  congr 1
  omega

/-- `le` of `to_le` is the number, where it fits (R130). -/
theorem leNat_toLeNat (n v : Nat) : leNat (toLeNat n v) = v % 256 ^ n := by
  induction n generalizing v with
  | zero => simp [leNat, toLeNat, Nat.mod_one]
  | succ n ih =>
    simp only [toLeNat, leNat, ih, BitVec.toNat_ofNat]
    have h : (256 : Nat) ^ (n + 1) = 256 * 256 ^ n := by rw [Nat.pow_succ, Nat.mul_comm]
    rw [h, Nat.mod_mul]

theorem leNat_lt (b : Bytes) : leNat b < 256 ^ b.length := by
  induction b with
  | nil => simp [leNat]
  | cons x xs ih =>
    simp only [leNat, List.length_cons, Nat.pow_succ]
    have := x.isLt
    omega

/-- `to_le` of `le` is the sequence (R130). -/
theorem toLeNat_leNat (b : Bytes) : toLeNat b.length (leNat b) = b := by
  induction b with
  | nil => rfl
  | cons x xs ih =>
    have hx := x.isLt
    simp only [List.length_cons, toLeNat, leNat]
    have h1 : (x.toNat + 256 * leNat xs) / 256 = leNat xs := by omega
    rw [h1, ih]
    congr 1
    apply BitVec.eq_of_toNat_eq
    simp only [BitVec.toNat_ofNat]
    omega

/-- A value of `8 * n` bits or fewer survives `to_le` and `le` (R42). -/
theorem le_toLe {n w : Nat} (v : BitVec w) (h : w ≤ 8 * n) : le w (toLe n v) = v := by
  apply BitVec.eq_of_toNat_eq
  have hv := v.isLt
  have h1 : (2 : Nat) ^ w ≤ 256 ^ n := by
    have : (256 : Nat) ^ n = 2 ^ (8 * n) := by rw [Nat.pow_mul]
    rw [this]
    exact Nat.pow_le_pow_right (by omega) h
  simp only [le, toLe, leNat_toLeNat, BitVec.toNat_ofNat]
  rw [Nat.mod_eq_of_lt (Nat.lt_of_lt_of_le hv h1), Nat.mod_eq_of_lt hv]

/-- `n` bytes survive `le` at `8 * n` bits and `to_le` (R42). -/
theorem toLe_le {b : Bytes} {n : Nat} (h : b.length = n) : toLe n (le (8 * n) b) = b := by
  subst h
  have h1 := leNat_lt b
  have h2 : (256 : Nat) ^ b.length = 2 ^ (8 * b.length) := by rw [Nat.pow_mul]
  simp only [toLe, le, BitVec.toNat_ofNat]
  rw [Nat.mod_eq_of_lt (by omega), toLeNat_leNat]

/-- A field read at its place and stored again is its bytes (R42). -/
theorem toLe_le_slice {r : Bytes} {n w i j : Nat} (hw : w = 8 * n) (hj : j - i = n) (h : j ≤ r.length) (hij : i ≤ j) :
    toLe n (le w (slice r i j)) = slice r i j := by
  subst hw
  exact toLe_le (by rw [slice_length]; omega)

/-- Field by field: the first field of a packed sequence. -/
theorem slice_toLe_first (n : Nat) {w : Nat} (v : BitVec w) (c : Bytes) : slice (toLe n v ++ c) 0 n = toLe n v :=
  slice_first c (toLe_length n v)

/-- Field by field: what stands past the first field. -/
theorem slice_toLe_skip (n : Nat) {w : Nat} (v : BitVec w) (c : Bytes) {i j : Nat} (h : n ≤ i) :
    slice (toLe n v ++ c) i j = slice c (i - n) (j - n) := by
  rw [slice_append_right c (by simpa using h), toLe_length]

end Sys2Proof
end

