-- ==== Sys2Proof/Laws/Crc.lean ====
section
/-!
SUPPORT. The laws of CK_ref (R57, R58): every step of it is linear over exclusive-or.
-/
namespace Sys2Proof

theorem crcBit_xor (a b : U64) : crcBit (a ^^^ b) = crcBit a ^^^ crcBit b := by
  have e : ∀ x : U64, crcBit x = (x >>> 1) ^^^ (if x.getLsbD 0 then crcPoly else 0) := by
    intro x
    simp only [crcBit]
    split <;> simp
  simp only [e, BitVec.ushiftRight_xor_distrib, BitVec.getLsbD_xor]
  cases a.getLsbD 0 <;> cases b.getLsbD 0 <;> (ext i; simp; try (cases crcPoly[i] <;> simp))

theorem crcBits_xor (n : Nat) (a b : U64) : crcBits n (a ^^^ b) = crcBits n a ^^^ crcBits n b := by
  induction n generalizing a b with
  | zero => rfl
  | succ n ih => simp only [crcBits, crcBit_xor, ih]

theorem crcByte_xor (a b : U64) (x y : Byte) : crcByte (a ^^^ b) (x ^^^ y) = crcByte a x ^^^ crcByte b y := by
  simp only [crcByte]
  rw [← crcBits_xor]
  congr 1
  simp only [BitVec.truncate_eq_setWidth, BitVec.setWidth_xor]
  ac_rfl

theorem crcByte_zero : crcByte 0 0 = 0 := by decide +kernel

end Sys2Proof
end

