-- ==== Sys2Proof/Laws/HeaderRecord.lean ====
section
/-!
SUPPORT. The lengths and the layout of the header record (R41, R45).
-/
namespace Sys2Proof

@[simp] theorem packBody_length (v : HeaderBody) : (packBody v).length = 34 := by simp [packBody]

@[simp] theorem packRecord_length (ck : Bytes → U64) (v : HeaderBody) : (packRecord ck v).length = 42 := by
  simp [packRecord]

/-- The comparison looks at the first 42 bytes alone (R45, R62). -/
theorem isHeaderBytes_append {ck : Bytes → U64} {r : Bytes} (c : Bytes) (h : 42 ≤ r.length) :
    isHeaderBytes ck (r ++ c) = isHeaderBytes ck r := by
  simp only [isHeaderBytes]
  rw [slice_append_left c (by omega), slice_append_left c h]

/-- Unpacking looks at the first 34 bytes alone for the eleven fields (R41). -/
theorem unpackBody_append {r : Bytes} (c : Bytes) (h : 34 ≤ r.length) : unpackBody (r ++ c) = unpackBody r := by
  simp only [unpackBody]
  congr 2 <;> exact slice_append_left c (by omega)

/-- Unpacking looks at the first 42 bytes alone (R41). -/
theorem unpackRecord_append {r : Bytes} (c : Bytes) (h : 42 ≤ r.length) : unpackRecord (r ++ c) = unpackRecord r := by
  simp only [unpackRecord, unpackBody_append c (by omega : 34 ≤ r.length), slice_append_left c h]

/-- Each field is read back where it was put (R41). -/
theorem unpackBody_packBody (v : HeaderBody) (c : Bytes) : unpackBody (packBody v ++ c) = v := by
  obtain ⟨f, r, e, b, d, n, k, m, cc, s, u⟩ := v
  simp only [unpackBody, packBody, List.append_assoc, HeaderBody.mk.injEq]
  refine ⟨?_, ?_, ?_, ?_, ?_, ?_, ?_, ?_, ?_, ?_, ?_⟩ <;>
    simp (disch := decide) only [slice_toLe_skip, slice_toLe_first, le_toLe, Nat.reduceSub]

/-- Packing the fields of a record gives its checksummed span (R45). -/
theorem packBody_unpackBody {r : Bytes} (h : 34 ≤ r.length) : packBody (unpackBody r) = slice r 0 34 := by
  have f : ∀ {n w i j : Nat}, w = 8 * n → j - i = n → j ≤ 34 → i ≤ j → toLe n (le w (slice r i j)) = slice r i j :=
    fun h1 h2 h3 h4 => toLe_le_slice h1 h2 (by omega) h4
  simp (disch := decide) only [packBody, unpackBody, f, slice_append_slice]

/-- The checksum field of a packed record (R60). -/
theorem slice_packRecord_checksum (ck : Bytes → U64) (v : HeaderBody) :
    slice (packRecord ck v) 34 42 = toLe 8 (ck (packBody v)) := by
  rw [packRecord, slice_append_right _ (by simp), packBody_length]
  simp [slice]

/-- The checksummed span of a packed record (R45, R60). -/
theorem slice_packRecord_span (ck : Bytes → U64) (v : HeaderBody) : slice (packRecord ck v) 0 34 = packBody v :=
  slice_first _ (packBody_length v)

/-- Unpacking a packed record gives its fields and its checksum (R63). -/
theorem unpackRecord_packRecord (ck : Bytes → U64) (v : HeaderBody) :
    unpackRecord (packRecord ck v) = { toHeaderBody := v, checksum := ck (packBody v) } := by
  have h1 : unpackBody (packRecord ck v) = v := unpackBody_packBody v _
  have h2 : le 64 (slice (packRecord ck v) 34 42) = ck (packBody v) := by
    rw [slice_packRecord_checksum, le_toLe _ (by decide)]
  simp only [unpackRecord, h1, h2]

/-- A packed record passes the comparison (R64). -/
theorem isHeaderBytes_packRecord (ck : Bytes → U64) (v : HeaderBody) : isHeaderBytes ck (packRecord ck v) = true := by
  rw [isHeaderBytes, slice_packRecord_checksum, slice_packRecord_span, le_toLe _ (by decide), beq_iff_eq]

end Sys2Proof
end

