-- ==== Sys2Proof/Laws/Memory.lean ====
section
/-!
SUPPORT. The laws of BUF: a read after a write, the canonical form, the bounds, and sequences of bytes (R25, R32).
-/
namespace Sys2Proof.Machine

@[simp] theorem Memory.read_nil (a : Nat) : Memory.read [] a = Memory.blank := rfl

/-- Below every listed address nothing is listed. -/
theorem Memory.read_of_wfFrom {m : Memory} {lo a : Nat} (h : Memory.wfFrom lo m = true) (ha : a < lo) :
    Memory.read m a = Memory.blank := by
  induction m generalizing lo with
  | nil => rfl
  | cons c m ih =>
    obtain ⟨b, w⟩ := c
    simp only [Memory.wfFrom, Bool.and_eq_true, decide_eq_true_eq] at h
    have hb : a ≠ b := by omega
    simp only [Memory.read, hb, if_false]
    exact ih h.2 (by omega)

theorem Memory.wfFrom_mono {m : Memory} {lo lo' : Nat} (h : Memory.wfFrom lo m = true) (hl : lo' ≤ lo) :
    Memory.wfFrom lo' m = true := by
  cases m with
  | nil => rfl
  | cons c m =>
    obtain ⟨b, w⟩ := c
    simp only [Memory.wfFrom, Bool.and_eq_true, decide_eq_true_eq] at h ⊢
    exact ⟨⟨by omega, h.1.2⟩, h.2⟩

/-- A write leaves every other byte alone (R32). -/
theorem Memory.read_write_other (m : Memory) {a b : Nat} (v : Byte) (h : b ≠ a) :
    Memory.read (Memory.write m a v) b = Memory.read m b := by
  induction m with
  | nil =>
    simp only [Memory.write]
    split <;> simp [Memory.read, h]
  | cons c m ih =>
    obtain ⟨k, w⟩ := c
    simp only [Memory.write]
    by_cases h1 : a < k
    · simp only [h1, if_true]
      split
      · rfl
      · simp [Memory.read, h]
    · by_cases h2 : a = k
      · subst h2
        simp only [h1, if_false, if_true]
        split <;> simp [Memory.read, h]
      · simp only [h1, h2, if_false, Memory.read, ih]

/-- A read after a write gives the byte written (R32). -/
theorem Memory.read_write_same {m : Memory} {lo : Nat} (hm : Memory.wfFrom lo m = true) (a : Nat) (v : Byte) :
    Memory.read (Memory.write m a v) a = v := by
  induction m generalizing lo with
  | nil =>
    simp only [Memory.write]
    split
    · simp_all
    · simp [Memory.read]
  | cons c m ih =>
    obtain ⟨k, w⟩ := c
    have hm' := hm
    simp only [Memory.wfFrom, Bool.and_eq_true, decide_eq_true_eq] at hm'
    simp only [Memory.write]
    by_cases h1 : a < k
    · simp only [h1, if_true]
      split
      · next hv =>
        have hk : a ≠ k := by omega
        simp only [Memory.read, hk, if_false, hv]
        exact Memory.read_of_wfFrom hm'.2 (by omega)
      · simp [Memory.read]
    · by_cases h2 : a = k
      · subst h2
        simp only [h1, if_false, if_true]
        split
        · next hv => rw [hv]; exact Memory.read_of_wfFrom hm'.2 (by omega)
        · simp [Memory.read]
      · simp only [h1, h2, if_false, Memory.read]
        exact ih hm'.2

theorem Memory.wfFrom_write {m : Memory} {lo : Nat} (hm : Memory.wfFrom lo m = true) {a : Nat} (ha : lo ≤ a) (v : Byte) :
    Memory.wfFrom lo (Memory.write m a v) = true := by
  induction m generalizing lo with
  | nil =>
    simp only [Memory.write]
    split
    · rfl
    · next hv => simp [Memory.wfFrom, ha, hv]
  | cons c m ih =>
    obtain ⟨k, w⟩ := c
    have hm' := hm
    simp only [Memory.wfFrom, Bool.and_eq_true, decide_eq_true_eq, Bool.not_eq_true', decide_eq_false_iff_not] at hm'
    simp only [Memory.write]
    by_cases h1 : a < k
    · simp only [h1, if_true]
      split
      · exact hm
      · next hv =>
        simp only [Memory.wfFrom, Bool.and_eq_true, decide_eq_true_eq, Bool.not_eq_true', decide_eq_false_iff_not]
        exact ⟨⟨ha, hv⟩, ⟨by omega, hm'.1.2⟩, hm'.2⟩
    · by_cases h2 : a = k
      · subst h2
        simp only [h1, if_false, if_true]
        split
        · exact Memory.wfFrom_mono hm'.2 (by omega)
        · next hv =>
          simp only [Memory.wfFrom, Bool.and_eq_true, decide_eq_true_eq, Bool.not_eq_true', decide_eq_false_iff_not]
          exact ⟨⟨ha, hv⟩, hm'.2⟩
      · simp only [h1, h2, if_false, Memory.wfFrom, Bool.and_eq_true, decide_eq_true_eq, Bool.not_eq_true',
          decide_eq_false_iff_not]
        exact ⟨hm'.1, ih hm'.2 (by omega)⟩

/-- A write keeps the canonical form. -/
theorem Memory.wf_write {m : Memory} (hm : Memory.wf m = true) (a : Nat) (v : Byte) :
    Memory.wf (Memory.write m a v) = true := Memory.wfFrom_write hm (Nat.zero_le a) v

/-- A write at an address BUF has keeps every listed address one it has. -/
theorem Memory.below_write {m : Memory} {n : Nat} (hm : Memory.below n m = true) {a : Nat} (ha : a < n) (v : Byte) :
    Memory.below n (Memory.write m a v) = true := by
  induction m with
  | nil =>
    simp only [Memory.write]
    split <;> simp [Memory.below, ha]
  | cons c m ih =>
    obtain ⟨k, w⟩ := c
    have hm' := hm
    simp only [Memory.below, Bool.and_eq_true, decide_eq_true_eq] at hm'
    simp only [Memory.write]
    repeat' split
    all_goals simp [Memory.below, ha, hm', ih]

/-- Bytes outside the written range are unchanged (R32). -/
theorem Memory.read_writeBytes_outside (m : Memory) (a : Nat) (vs : Bytes) {b : Nat} (h : b < a ∨ a + vs.length ≤ b) :
    Memory.read (Memory.writeBytes m a vs) b = Memory.read m b := by
  induction vs generalizing m a with
  | nil => rfl
  | cons v vs ih =>
    simp only [List.length_cons] at h
    rw [Memory.writeBytes, ih _ _ (by omega), Memory.read_write_other _ _ (by omega)]

theorem Memory.wf_writeBytes {m : Memory} (hm : Memory.wf m = true) (a : Nat) (vs : Bytes) :
    Memory.wf (Memory.writeBytes m a vs) = true := by
  induction vs generalizing m a with
  | nil => exact hm
  | cons v vs ih => exact ih (Memory.wf_write hm a v) (a + 1)

theorem Memory.below_writeBytes {m : Memory} {n : Nat} (hm : Memory.below n m = true) (a : Nat) (vs : Bytes)
    (h : a + vs.length ≤ n) : Memory.below n (Memory.writeBytes m a vs) = true := by
  induction vs generalizing m a with
  | nil => exact hm
  | cons v vs ih =>
    simp only [List.length_cons] at h
    exact ih (Memory.below_write hm (by omega) v) (a + 1) (by omega)

/-- Bytes inside the written range are the bytes written (R32). -/
theorem Memory.read_writeBytes_inside {m : Memory} (hm : Memory.wf m = true) (a : Nat) (vs : Bytes) {k : Nat}
    (hk : k < vs.length) : Memory.read (Memory.writeBytes m a vs) (a + k) = vs[k] := by
  induction vs generalizing m a k with
  | nil => simp at hk
  | cons v vs ih =>
    rw [Memory.writeBytes]
    cases k with
    | zero =>
      rw [Memory.read_writeBytes_outside _ _ _ (by omega)]
      simpa using Memory.read_write_same hm a v
    | succ k =>
      have := ih (Memory.wf_write hm a v) (a + 1) (k := k) (by simpa using hk)
      simpa [Nat.add_assoc, Nat.add_comm 1 k] using this

theorem Memory.ofWrites_wf (n : Nat) (ws : List (Nat × Byte)) : Memory.wf (Memory.ofWrites n ws) = true := by
  induction ws with
  | nil => rfl
  | cons c ws ih =>
    obtain ⟨a, v⟩ := c
    simp only [Memory.ofWrites]
    split
    · exact Memory.wf_write ih a v
    · exact ih

theorem Memory.ofWrites_below (n : Nat) (ws : List (Nat × Byte)) : Memory.below n (Memory.ofWrites n ws) = true := by
  induction ws with
  | nil => rfl
  | cons c ws ih =>
    obtain ⟨a, v⟩ := c
    simp only [Memory.ofWrites]
    split
    · next h => exact Memory.below_write ih h v
    · exact ih

@[simp] theorem Memory.readBytes_length (m : Memory) (a n : Nat) : (Memory.readBytes m a n).length = n := by
  induction n generalizing a with
  | zero => rfl
  | succ n ih => simp [Memory.readBytes, ih]

theorem Memory.readBytes_getElem (m : Memory) (a n : Nat) {k : Nat} (hk : k < (Memory.readBytes m a n).length) :
    (Memory.readBytes m a n)[k] = Memory.read m (a + k) := by
  induction n generalizing a k with
  | zero => simp [Memory.readBytes] at hk
  | succ n ih =>
    cases k with
    | zero => simp [Memory.readBytes]
    | succ k =>
      simp only [Memory.readBytes, List.getElem_cons_succ]
      rw [ih (a + 1) (by simpa [Memory.readBytes] using hk)]
      congr 1
      omega

theorem Memory.readBytes_append (m : Memory) (a n k : Nat) :
    Memory.readBytes m a (n + k) = Memory.readBytes m a n ++ Memory.readBytes m (a + n) k := by
  induction n generalizing a with
  | zero => simp [Memory.readBytes]
  | succ n ih =>
    rw [Nat.add_right_comm, Memory.readBytes, Memory.readBytes, ih (a + 1)]
    simp [Nat.add_comm 1 n, Nat.add_assoc]

/-- A read of a range depends on the bytes of that range alone. -/
theorem Memory.readBytes_congr {m m' : Memory} {a n : Nat}
    (h : ∀ b, a ≤ b → b < a + n → Memory.read m b = Memory.read m' b) :
    Memory.readBytes m a n = Memory.readBytes m' a n := by
  induction n generalizing a with
  | zero => rfl
  | succ n ih =>
    rw [Memory.readBytes, Memory.readBytes, h a (by omega) (by omega), ih fun b h1 h2 => h b (by omega) (by omega)]

/-- Reading back exactly the range written gives the bytes written. -/
theorem Memory.readBytes_writeBytes {m : Memory} (hm : Memory.wf m = true) (a : Nat) (vs : Bytes) :
    Memory.readBytes (Memory.writeBytes m a vs) a vs.length = vs := by
  apply List.ext_getElem (by simp)
  intro k h1 h2
  rw [Memory.readBytes_getElem, Memory.read_writeBytes_inside hm a vs h2]

end Sys2Proof.Machine
end

