-- ==== Sys2Proof/Laws/Operands.lean ====
section
/-!
SUPPORT. The arithmetic of a usable header (R66, R67, R93): block lengths, their places in BUF, and the size of the frame.
-/
namespace Sys2Proof.Machine

/-- The nine checks of R66, as propositions. -/
theorem usable_iff (p : Params) (h : HeaderBody) :
    usable p h = true ↔
      bpcOf h ≠ 0 ∧ h.datagramSize = p.dsRx ∧ 1 ≤ rxSpb p h ∧ 1 ≤ h.blockCount.toNat ∧
      h.blockCount.toNat = blocksFor h.completeBlockCount.toNat h.remainderSamples.toNat ∧
      h.frameSampleCount.toNat = h.completeBlockCount.toNat * rxSpb p h + h.remainderSamples.toNat ∧
      h.remainderSamples.toNat < rxSpb p h ∧ frameBytes h ≤ p.bufBytes ∧ codecInvDefined p (codecOf h) = true := by
  simp only [usable, usableU1, usableU2, usableU3, usableU4, usableU5, usableU6, usableU7, usableU8, usableU9,
    Bool.and_eq_true, decide_eq_true_eq, and_assoc]

theorem bpcOf_lt (h : HeaderBody) : bpcOf h < 16 := (h.sampleEncoding.extractLsb' 0 4).isLt

/-- The largest frame a header can ask for fits 37 bits (R14, R15). -/
theorem frameBytes_lt (h : HeaderBody) : frameBytes h < 2 ^ 37 := by
  have h1 := h.frameSampleCount.isLt
  have h2 : bpcOf h ≤ 15 := Nat.le_of_lt_succ (bpcOf_lt h)
  have h3 : frameBytes h ≤ (2 ^ 32 - 1) * 2 * 15 := Nat.mul_le_mul (Nat.mul_le_mul_right 2 (by omega)) h2
  omega

/-- The frame is its full blocks and its remainder (R39, R67). -/
theorem frameBytes_eq {p : Params} {h : HeaderBody} (hu : usable p h = true) :
    frameBytes h =
      h.completeBlockCount.toNat * fullBlockBytes p h + h.remainderSamples.toNat * 2 * bpcOf h := by
  obtain ⟨-, -, -, -, -, h6, -⟩ := (usable_iff p h).1 hu
  simp only [frameBytes, fullBlockBytes, h6]
  ring

/-- A block before the last is full (R86, R94 (c)). -/
theorem blockLength_full {p : Params} {h : HeaderBody} (hu : usable p h = true) {idx : Nat}
    (hi : idx + 1 < h.blockCount.toNat) : blockLength p h idx = fullBlockBytes p h := by
  obtain ⟨-, -, -, -, h5, -⟩ := (usable_iff p h).1 hu
  have : idx < h.completeBlockCount.toNat := by
    rw [h5, blocksFor] at hi
    split at hi <;> omega
  simp [blockLength, blockSamples, fullBlockBytes, this]

/-- A full block fits the datagram (R67). -/
theorem fullBlockBytes_le (p : Params) (h : HeaderBody) : fullBlockBytes p h ≤ p.dsRx.toNat := by
  simp only [fullBlockBytes, rxSpb, spbOf]
  rw [Nat.mul_assoc]
  exact Nat.div_mul_le_self _ _

/-- Every block holds a sample and fits the datagram (R67, R86). -/
theorem blockLength_bounds {p : Params} {h : HeaderBody} (hu : usable p h = true) {idx : Nat}
    (hi : idx < h.blockCount.toNat) :
    2 * bpcOf h ≤ blockLength p h idx ∧ blockLength p h idx ≤ p.dsRx.toNat := by
  obtain ⟨-, -, h3, -, h5, -, h7, -⟩ := (usable_iff p h).1 hu
  have hB := fullBlockBytes_le p h
  have hs : 1 ≤ blockSamples p h idx ∧ blockSamples p h idx ≤ rxSpb p h := by
    rw [h5, blocksFor] at hi
    simp only [blockSamples]
    split at hi <;> split <;> omega
  constructor
  · calc 2 * bpcOf h = 1 * 2 * bpcOf h := by ring
      _ ≤ blockLength p h idx := Nat.mul_le_mul_right _ (Nat.mul_le_mul_right 2 hs.1)
  · exact le_trans (Nat.mul_le_mul_right _ (Nat.mul_le_mul_right 2 hs.2)) hB

/-- The last block ends the frame (R39, R94 (d)). -/
theorem blockLength_last {p : Params} {h : HeaderBody} (hu : usable p h = true) {idx : Nat}
    (hi : idx + 1 = h.blockCount.toNat) : idx * fullBlockBytes p h + blockLength p h idx = frameBytes h := by
  obtain ⟨-, -, -, -, h5, -⟩ := (usable_iff p h).1 hu
  rw [frameBytes_eq hu]
  rw [h5, blocksFor] at hi
  simp only [blockLength, blockSamples]
  split at hi
  · have : idx = h.completeBlockCount.toNat := by omega
    simp [this]
  · have h0 : h.remainderSamples.toNat = 0 := by omega
    have h1 : idx < h.completeBlockCount.toNat := by omega
    have h2 : h.completeBlockCount.toNat = idx + 1 := by omega
    rw [if_pos h1, h0, h2, fullBlockBytes]
    ring

/-- Every block lies inside the frame, and one before the last ends below the frame's end (R94 (d)). -/
theorem block_inside {p : Params} {h : HeaderBody} (hu : usable p h = true) {idx : Nat}
    (hi : idx < h.blockCount.toNat) :
    idx * fullBlockBytes p h + blockLength p h idx ≤ frameBytes h ∧
    (idx * fullBlockBytes p h + blockLength p h idx = frameBytes h ↔ idx + 1 = h.blockCount.toNat) := by
  by_cases hl : idx + 1 = h.blockCount.toNat
  · exact ⟨le_of_eq (blockLength_last hu hl), iff_of_true (blockLength_last hu hl) hl⟩
  · have hlt : idx + 1 < h.blockCount.toNat := by omega
    obtain ⟨h1, -⟩ := (usable_iff p h).1 hu
    have hlast := blockLength_last hu (idx := h.blockCount.toNat - 1) (by omega)
    have hpos := (blockLength_bounds hu (idx := h.blockCount.toNat - 1) (by omega)).1
    have hfull := blockLength_full hu hlt
    have hmono : (idx + 1) * fullBlockBytes p h ≤ (h.blockCount.toNat - 1) * fullBlockBytes p h :=
      Nat.mul_le_mul_right _ (by omega)
    rw [Nat.succ_mul] at hmono
    constructor
    · omega
    · constructor
      · intro he; omega
      · intro he; exact absurd he hl

end Sys2Proof.Machine
end

