-- ==== Sys2Proof/Laws/State.lean ====
section
/-!
SUPPORT. What each state update leaves in each field, so that no proof unfolds a record update.
-/
namespace Sys2Proof.Machine

@[simp] theorem setOut_rsm (o : Outputs) (s : State) : (setOut o s).rsm = s.rsm := rfl
@[simp] theorem setOut_hdr (o : Outputs) (s : State) : (setOut o s).hdr = s.hdr := rfl
@[simp] theorem setOut_blocksRemaining (o : Outputs) (s : State) : (setOut o s).blocksRemaining = s.blocksRemaining := rfl
@[simp] theorem setOut_nextOffset (o : Outputs) (s : State) : (setOut o s).nextOffset = s.nextOffset := rfl
@[simp] theorem setOut_buf (o : Outputs) (s : State) : (setOut o s).buf = s.buf := rfl
@[simp] theorem setOut_params (o : Outputs) (s : State) : (setOut o s).params = s.params := rfl
@[simp] theorem setOut_port (o : Outputs) (s : State) : (setOut o s).port = s.port := rfl
@[simp] theorem setOut_out (o : Outputs) (s : State) : (setOut o s).out = o := rfl
@[simp] theorem setOut_freeCount (o : Outputs) (s : State) : (setOut o s).freeCount = s.freeCount := rfl

@[simp] theorem adoptHeader_rsm (h : Header) (s : State) : (adoptHeader h s).rsm = .collecting := rfl
@[simp] theorem adoptHeader_hdr (h : Header) (s : State) : (adoptHeader h s).hdr = h := rfl
@[simp] theorem adoptHeader_blocksRemaining (h : Header) (s : State) : (adoptHeader h s).blocksRemaining = h.blockCount := rfl
@[simp] theorem adoptHeader_nextOffset (h : Header) (s : State) : (adoptHeader h s).nextOffset = 0 := rfl
@[simp] theorem adoptHeader_buf (h : Header) (s : State) : (adoptHeader h s).buf = s.buf := rfl
@[simp] theorem adoptHeader_params (h : Header) (s : State) : (adoptHeader h s).params = s.params := rfl
@[simp] theorem adoptHeader_port (h : Header) (s : State) : (adoptHeader h s).port = s.port := rfl
@[simp] theorem adoptHeader_out (h : Header) (s : State) : (adoptHeader h s).out = s.out := rfl
@[simp] theorem adoptHeader_freeCount (h : Header) (s : State) : (adoptHeader h s).freeCount = s.freeCount := rfl

@[simp] theorem parkHeader_rsm (h : Header) (s : State) : (parkHeader h s).rsm = .awaitingHeader := rfl
@[simp] theorem parkHeader_hdr (h : Header) (s : State) : (parkHeader h s).hdr = h := rfl
@[simp] theorem parkHeader_blocksRemaining (h : Header) (s : State) : (parkHeader h s).blocksRemaining = s.blocksRemaining := rfl
@[simp] theorem parkHeader_nextOffset (h : Header) (s : State) : (parkHeader h s).nextOffset = s.nextOffset := rfl
@[simp] theorem parkHeader_buf (h : Header) (s : State) : (parkHeader h s).buf = s.buf := rfl
@[simp] theorem parkHeader_params (h : Header) (s : State) : (parkHeader h s).params = s.params := rfl
@[simp] theorem parkHeader_port (h : Header) (s : State) : (parkHeader h s).port = s.port := rfl
@[simp] theorem parkHeader_out (h : Header) (s : State) : (parkHeader h s).out = s.out := rfl
@[simp] theorem parkHeader_freeCount (h : Header) (s : State) : (parkHeader h s).freeCount = s.freeCount := rfl

@[simp] theorem releaseFrame_rsm (s : State) : (releaseFrame s).rsm = .awaitingHeader := rfl
@[simp] theorem releaseFrame_hdr (s : State) : (releaseFrame s).hdr = s.hdr := rfl
@[simp] theorem releaseFrame_blocksRemaining (s : State) : (releaseFrame s).blocksRemaining = s.blocksRemaining := rfl
@[simp] theorem releaseFrame_nextOffset (s : State) : (releaseFrame s).nextOffset = s.nextOffset := rfl
@[simp] theorem releaseFrame_buf (s : State) : (releaseFrame s).buf = s.buf := rfl
@[simp] theorem releaseFrame_params (s : State) : (releaseFrame s).params = s.params := rfl
@[simp] theorem releaseFrame_port (s : State) : (releaseFrame s).port = s.port := rfl
@[simp] theorem releaseFrame_out (s : State) : (releaseFrame s).out = s.out := rfl
@[simp] theorem releaseFrame_freeCount (s : State) : (releaseFrame s).freeCount = s.freeCount := rfl

@[simp] theorem storeBlock_rsm (blk : Bytes) (n : Nat) (s : State) : (storeBlock blk n s).rsm = s.rsm := rfl
@[simp] theorem storeBlock_hdr (blk : Bytes) (n : Nat) (s : State) : (storeBlock blk n s).hdr = s.hdr := rfl
@[simp] theorem storeBlock_blocksRemaining (blk : Bytes) (n : Nat) (s : State) : (storeBlock blk n s).blocksRemaining = s.blocksRemaining - 1 := rfl
@[simp] theorem storeBlock_nextOffset (blk : Bytes) (n : Nat) (s : State) : (storeBlock blk n s).nextOffset = s.nextOffset + BitVec.ofNat 37 n := rfl
@[simp] theorem storeBlock_buf (blk : Bytes) (n : Nat) (s : State) : (storeBlock blk n s).buf = Memory.writeBytes s.buf s.nextOffset.toNat (slice blk 0 n) := rfl
@[simp] theorem storeBlock_params (blk : Bytes) (n : Nat) (s : State) : (storeBlock blk n s).params = s.params := rfl
@[simp] theorem storeBlock_port (blk : Bytes) (n : Nat) (s : State) : (storeBlock blk n s).port = s.port := rfl
@[simp] theorem storeBlock_out (blk : Bytes) (n : Nat) (s : State) : (storeBlock blk n s).out = s.out := rfl
@[simp] theorem storeBlock_freeCount (blk : Bytes) (n : Nat) (s : State) : (storeBlock blk n s).freeCount = s.freeCount := rfl

@[simp] theorem applyReset_rsm (s : State) : (applyReset s).rsm = .awaitingHeader := rfl
@[simp] theorem applyReset_hdr (s : State) : (applyReset s).hdr = Config.freeHeader s.freeCount := rfl
@[simp] theorem applyReset_blocksRemaining (s : State) : (applyReset s).blocksRemaining = Config.freeBlocks s.freeCount := rfl
@[simp] theorem applyReset_nextOffset (s : State) : (applyReset s).nextOffset = Config.freeOffset s.freeCount := rfl
@[simp] theorem applyReset_buf (s : State) : (applyReset s).buf = Memory.ofWrites s.params.bufBytes (Config.freeBuf s.freeCount) := rfl
@[simp] theorem applyReset_params (s : State) : (applyReset s).params = s.params := rfl
@[simp] theorem applyReset_port (s : State) : (applyReset s).port = s.port := rfl
@[simp] theorem applyReset_out (s : State) : (applyReset s).out = Outputs.idle := rfl
@[simp] theorem applyReset_freeCount (s : State) : (applyReset s).freeCount = s.freeCount + 1 := rfl

end Sys2Proof.Machine
end

