-- ==== Sys2Proof/Laws/Reassembler.lean ====
section
/-!
SUPPORT. What a datagram does to the reassembler: one inversion lemma for every state, the exact result in a state that
keeps the invariant, and that the invariant is kept (R79 to R90, R94).
-/
namespace Sys2Proof.Machine

/-- The parts of the invariant. -/
theorem State.inv_iff (s : State) :
    s.inv = true ↔
      (42 ≤ s.params.dsRx.toNat ∧ 1 ≤ s.params.bufBytes) ∧
      (Memory.wf s.buf = true ∧ Memory.below s.params.bufBytes s.buf = true) ∧
      (s.rsm = .collecting → s.frameOk = true) := by
  simp only [State.inv, State.bufOk, Params.legal, Bool.and_eq_true, Bool.or_eq_true, decide_eq_true_eq, and_assoc]
  cases s.rsm <;> simp

theorem State.frameOk_iff (s : State) :
    s.frameOk = true ↔
      usable s.params s.hdr.toHeaderBody = true ∧
      (1 ≤ s.blocksRemaining.toNat ∧ s.blocksRemaining.toNat ≤ s.hdr.blockCount.toNat) ∧
      s.nextOffset.toNat = blockIndex s * fullBlockBytes s.params s.hdr.toHeaderBody := by
  simp only [State.frameOk, Bool.and_eq_true, decide_eq_true_eq, and_assoc]

/-- The block count reaches zero exactly from one (R90). -/
theorem u16_pred_eq_zero (b : U16) : b - 1 = 0 ↔ b.toNat = 1 := by
  have h1 : (1 : U16).toNat = 1 := rfl
  have h0 : (0 : U16).toNat = 0 := rfl
  have hb := b.isLt
  rw [← BitVec.toNat_inj, BitVec.toNat_sub, h1, h0]
  omega

/-- Above zero the decrement does not wrap (R93). -/
theorem u16_pred_toNat {b : U16} (h : 1 ≤ b.toNat) : (b - 1).toNat = b.toNat - 1 := by
  have h1 : (1 : U16).toNat = 1 := rfl
  have hb := b.isLt
  rw [BitVec.toNat_sub, h1]
  omega

/-- A transform keeps the datagram's length (R8). -/
theorem inverseTransform_length {p : Params} {c : U4} {dg blk : Bytes} (h : inverseTransform p c dg = some blk) :
    blk.length = dg.length := by
  simp only [inverseTransform] at h
  split at h
  · simp_all
  · split at h
    · simp at h
    · simp only [Option.map_eq_some_iff] at h
      obtain ⟨y, -, rfl⟩ := h
      simp

@[simp] theorem inverseTransform_zero (p : Params) (dg : Bytes) : inverseTransform p 0#4 dg = some dg := by
  simp [inverseTransform]

@[simp] theorem forwardTransform_zero (p : Params) (d : Bytes) : forwardTransform p 0#4 d = d := by
  simp [forwardTransform]

theorem forwardTransform_length (p : Params) (c : U4) (d : Bytes) : (forwardTransform p c d).length = d.length := by
  simp only [forwardTransform]
  split
  · rfl
  · split <;> simp

/-- The counters while a frame is collected, for the block that is due (R94). -/
theorem frameOk_due {s : State} (h : s.frameOk = true) :
    blockIndex s < s.hdr.blockCount.toNat ∧
    (s.blocksRemaining.toNat = 1 ↔ blockIndex s + 1 = s.hdr.blockCount.toNat) ∧
    s.nextOffset.toNat + blockBytes s ≤ frameBytes s.hdr.toHeaderBody ∧
    (s.nextOffset.toNat + blockBytes s = frameBytes s.hdr.toHeaderBody ↔ s.blocksRemaining.toNat = 1) ∧
    frameBytes s.hdr.toHeaderBody ≤ s.params.bufBytes := by
  obtain ⟨hu, ⟨h1, h2⟩, h3⟩ := (State.frameOk_iff s).1 h
  have hi : blockIndex s < s.hdr.blockCount.toNat := by simp only [blockIndex]; omega
  have hl : s.blocksRemaining.toNat = 1 ↔ blockIndex s + 1 = s.hdr.blockCount.toNat := by
    simp only [blockIndex]; omega
  obtain ⟨h4, h5⟩ := block_inside hu hi
  have h8 := ((usable_iff _ _).1 hu).2.2.2.2.2.2.2.1
  refine ⟨hi, hl, ?_, ?_, h8⟩
  · rw [h3]; exact h4
  · rw [h3, hl]; exact h5

/-- The payload path while collecting, in a state that keeps R94: never a fault (R86 to R90). -/
theorem collectBlock_of_frameOk {s : State} (h : s.frameOk = true) {dg : Bytes}
    (hd : dg.length = s.params.dsRx.toNat) :
    collectBlock dg s =
      match inverseTransform s.params (codecOf s.hdr.toHeaderBody) dg with
      | none => .next (setOut (acceptOutputs .payCodecFail false none) s)
      | some blk =>
        if s.blocksRemaining.toNat = 1 then
          .next (setOut (acceptOutputs .frameDone false (some (completedFrame (storeBlock blk (blockBytes s) s))))
            (releaseFrame (storeBlock blk (blockBytes s) s)))
        else .next (setOut (acceptOutputs .payStored false none) (storeBlock blk (blockBytes s) s)) := by
  obtain ⟨hu, ⟨h1, h2⟩, -⟩ := (State.frameOk_iff s).1 h
  obtain ⟨hi, -, hin, -, hbuf⟩ := frameOk_due h
  have hb := ((usable_iff _ _).1 hu).1
  have hn := (blockLength_bounds hu hi).2
  have h37 := frameBytes_lt s.hdr.toHeaderBody
  have c2 : ¬(s.blocksRemaining.toNat = 0 ∨ s.hdr.blockCount.toNat < s.blocksRemaining.toNat) := by omega
  simp only [collectBlock, if_neg hb, if_neg c2]
  cases hinv : inverseTransform s.params (codecOf s.hdr.toHeaderBody) dg with
  | none => rfl
  | some blk =>
    have hl : ¬blk.length < blockBytes s := by
      rw [inverseTransform_length hinv, hd]
      exact Nat.not_lt.2 hn
    have hw : ¬(s.params.bufBytes < s.nextOffset.toNat + blockBytes s ∨ 2 ^ 37 ≤ s.nextOffset.toNat + blockBytes s) := by
      omega
    have hz := u16_pred_eq_zero s.blocksRemaining
    simp only [if_neg hl, if_neg hw, completeOrContinue, storeBlock_blocksRemaining, storeBlock_hdr, storeBlock_params,
      hz, raiseDisp, finish, hbuf, if_true]

/-- Everything a datagram can do to the block, in any state (R79 to R90): when it answers a next state, one of the seven
dispositions holds, with its condition and its state. -/
theorem acceptDatagram_cases {len : Nat} {dg : Bytes} {s t : State} (h : acceptDatagram len dg s = .next t) :
    (len ≠ s.params.dsRx.toNat ∧ t = setOut (acceptOutputs .dropSize false none) s) ∨
    (len = s.params.dsRx.toNat ∧ isHeaderBytes s.params.ck.run dg = true ∧
      ((usable s.params (unpackRecord (slice dg 0 42)).toHeaderBody = true ∧
        t = setOut (acceptOutputs .hdrAdopted (decide (s.rsm = .collecting)) none)
          (adoptHeader (unpackRecord (slice dg 0 42)) s)) ∨
      (usable s.params (unpackRecord (slice dg 0 42)).toHeaderBody = false ∧
        t = setOut (acceptOutputs .hdrUnusable (decide (s.rsm = .collecting)) none)
          (parkHeader (unpackRecord (slice dg 0 42)) s)))) ∨
    (len = s.params.dsRx.toNat ∧ isHeaderBytes s.params.ck.run dg = false ∧ s.rsm = .awaitingHeader ∧
      t = setOut (acceptOutputs .payNosync false none) s) ∨
    (len = s.params.dsRx.toNat ∧ isHeaderBytes s.params.ck.run dg = false ∧ s.rsm = .collecting ∧
      ((inverseTransform s.params (codecOf s.hdr.toHeaderBody) dg = none ∧
        t = setOut (acceptOutputs .payCodecFail false none) s) ∨
      ∃ blk, inverseTransform s.params (codecOf s.hdr.toHeaderBody) dg = some blk ∧ blockBytes s ≤ blk.length ∧
        s.nextOffset.toNat + blockBytes s ≤ s.params.bufBytes ∧ s.nextOffset.toNat + blockBytes s < 2 ^ 37 ∧
        1 ≤ s.blocksRemaining.toNat ∧
        ((s.blocksRemaining - 1 ≠ 0 ∧
          t = setOut (acceptOutputs .payStored false none) (storeBlock blk (blockBytes s) s)) ∨
        (s.blocksRemaining - 1 = 0 ∧
          t = setOut (acceptOutputs .frameDone false (some (completedFrame (storeBlock blk (blockBytes s) s))))
            (releaseFrame (storeBlock blk (blockBytes s) s)))))) := by
  have next_inj : ∀ {x : State}, Host.Outcome.next (φ := Fault) (ρ := Refusal) x = .next t → t = x := by
    intro x hx
    injection hx with hx
    exact hx.symm
  simp only [acceptDatagram] at h
  split at h
  · next hlen => exact .inl ⟨hlen, next_inj h⟩
  next hlen =>
  have hlen' := not_not.1 hlen
  split at h
  · next hh =>
    simp only [headerPath] at h
    split at h
    · next hu => exact .inr (.inl ⟨hlen', hh, .inl ⟨hu, next_inj h⟩⟩)
    · next hu => exact .inr (.inl ⟨hlen', hh, .inr ⟨Bool.not_eq_true _ ▸ hu, next_inj h⟩⟩)
  next hh =>
  have hh' := Bool.not_eq_true _ ▸ hh
  simp only [payloadPath] at h
  split at h
  · next hr => exact .inr (.inr (.inl ⟨hlen', hh', hr, next_inj h⟩))
  next hr =>
  refine .inr (.inr (.inr ⟨hlen', hh', hr, ?_⟩))
  simp only [collectBlock] at h
  split at h
  · cases h
  split at h
  · cases h
  next hc =>
  split at h
  · next hn => exact .inl ⟨hn, next_inj h⟩
  next blk hb =>
  split at h
  · cases h
  next hl =>
  split at h
  · cases h
  next hw =>
  refine .inr ⟨blk, hb, by omega, by omega, by omega, by omega, ?_⟩
  simp only [completeOrContinue] at h
  split at h
  · next hz =>
    split at h
    · exact .inr ⟨hz, next_inj h⟩
    · cases h
  · next hz => exact .inl ⟨hz, next_inj h⟩

/-- Storing a block that is not the last keeps R94 (R89). -/
theorem frameOk_storeBlock {s : State} (h : s.frameOk = true) (h1 : s.blocksRemaining.toNat ≠ 1) (blk : Bytes) :
    (storeBlock blk (blockBytes s) s).frameOk = true := by
  obtain ⟨hu, ⟨hb1, hb2⟩, ho⟩ := (State.frameOk_iff s).1 h
  obtain ⟨hi, hl, hin, -, -⟩ := frameOk_due h
  have h37 := frameBytes_lt s.hdr.toHeaderBody
  have hbr := u16_pred_toNat hb1
  have hfull : blockBytes s = fullBlockBytes s.params s.hdr.toHeaderBody := blockLength_full hu (by omega)
  have hidx : blockIndex (storeBlock blk (blockBytes s) s) = blockIndex s + 1 := by
    simp only [blockIndex, storeBlock_hdr, storeBlock_blocksRemaining, hbr]
    omega
  rw [State.frameOk_iff]
  refine ⟨hu, ⟨?_, ?_⟩, ?_⟩
  · rw [storeBlock_blocksRemaining, hbr]; omega
  · rw [storeBlock_blocksRemaining, storeBlock_hdr, hbr]; omega
  · rw [hidx, storeBlock_nextOffset, storeBlock_params, storeBlock_hdr, BitVec.toNat_add, BitVec.toNat_ofNat,
      Nat.mod_eq_of_lt (by omega : blockBytes s < 2 ^ 37), Nat.mod_eq_of_lt (by omega), ho, hfull]
    ring

/-- Adopting a usable header establishes R94 (R83). -/
theorem frameOk_adoptHeader {h : Header} {s : State} (hu : usable s.params h.toHeaderBody = true) :
    (adoptHeader h s).frameOk = true := by
  have h4 := ((usable_iff _ _).1 hu).2.2.2.1
  rw [State.frameOk_iff]
  exact ⟨hu, ⟨h4, le_refl _⟩, by simp [blockIndex]⟩

end Sys2Proof.Machine
end

