-- ==== Sys2Proof/Laws/Packetizer.lean ====
section
/-!
SUPPORT. The arithmetic of an EMIT (R69 to R75): what its checks admit, where its blocks lie in the batch, how long its
datagrams are, and what a receiver finds in its header.
-/
namespace Sys2Proof.Machine

/-- A codec is undefined where its nibble is not 0 and no entry is for it (R69 check E4). -/
theorem codecFwdDefined_eq_false (p : Params) (c : U4) :
    codecFwdDefined p c = false ↔ c ≠ 0 ∧ ¬∃ e, e ∈ p.codecFwd ∧ e.nibble = c := by
  by_cases h : c = 0
  · simp [codecFwdDefined, h]
  · have h' : ¬c = 0#4 := h
    simp [codecFwdDefined, codecEntry, h', List.find?_eq_none]

/-- The four checks of R69, as propositions. -/
theorem emitRefused_iff (p : Params) (q : EmitRequest) :
    emitRefused p q = true ↔
      q.bytesPerComponent.toNat = 0 ∨ q.datagramSize.toNat < 42 ∨
      (65535 < emitComplete q ∨ (emitComplete q = 65535 ∧ 0 < emitRemainder q)) ∨
      (q.codec ≠ 0 ∧ ¬∃ e, e ∈ p.codecFwd ∧ e.nibble = q.codec) := by
  have hb : q.bytesPerComponent = 0 ↔ q.bytesPerComponent.toNat = 0 := by
    rw [← BitVec.toNat_inj]
    rfl
  simp only [emitRefused, refusedE1, refusedE2, refusedE3, refusedE4, Bool.or_eq_true, Bool.and_eq_true,
    decide_eq_true_eq, hb, Bool.not_eq_true', codecFwdDefined_eq_false, or_assoc]

/-- What the checks of R69 leave of an admitted EMIT. -/
structure Admitted (p : Params) (q : EmitRequest) : Prop where
  bpc_ne   : q.bytesPerComponent.toNat ≠ 0
  size_ge  : 42 ≤ q.datagramSize.toNat
  spb_pos  : 1 ≤ emitSpb q
  rem_lt   : emitRemainder q < emitSpb q
  block_le : emitBlockBytes q ≤ q.datagramSize.toNat
  bc_lt    : emitBlocks q < 65536
  cbc_lt   : emitComplete q < 65536
  rem_fits : emitRemainder q < 65536
  codec    : codecFwdDefined p q.codec = true

theorem admitted_of_not_refused {p : Params} {q : EmitRequest} (h : emitRefused p q = false) : Admitted p q := by
  have h0 := mt (emitRefused_iff p q).2 (by simp [h])
  have h4 : codecFwdDefined p q.codec = true := by
    simp only [emitRefused, Bool.or_eq_false_iff, refusedE4, Bool.not_eq_false'] at h
    exact h.2
  push Not at h0
  obtain ⟨h1, h2, h3, -⟩ := h0
  have hb := q.bytesPerComponent.isLt
  have hd := q.datagramSize.isLt
  have hspb : 1 ≤ emitSpb q := by
    simp only [emitSpb, spbOf]
    exact (Nat.one_le_div_iff (by omega)).2 (by omega)
  have hle : emitBlockBytes q ≤ q.datagramSize.toNat := by
    simp only [emitBlockBytes]
    rw [Nat.mul_assoc]
    exact Nat.div_mul_le_self _ _
  have hr : emitRemainder q < emitSpb q := Nat.mod_lt _ hspb
  have hsp : emitSpb q < 65536 := by
    have : emitSpb q * 1 ≤ emitBlockBytes q := by
      simp only [emitBlockBytes]
      rw [Nat.mul_assoc]
      exact Nat.mul_le_mul_left _ (by omega)
    omega
  have h5 : emitComplete q = 65535 → emitRemainder q = 0 := fun he => Nat.le_zero.1 (h3.2 he)
  refine ⟨h1, h2, hspb, hr, hle, ?_, by omega, by omega, h4⟩
  simp only [emitBlocks, blocksFor]
  split <;> omega

/-- `N = cbc * spb + rem` (R70). -/
theorem emit_count_eq (q : EmitRequest) : q.count.toNat = emitComplete q * emitSpb q + emitRemainder q := by
  simp only [emitComplete, emitRemainder]
  rw [Nat.mul_comm]
  exact (Nat.div_add_mod _ _).symm

/-- The batch is its full blocks and its remainder (R73, R74). -/
theorem emit_sampleBytes_eq (q : EmitRequest) :
    q.sampleBytes = emitComplete q * emitBlockBytes q + emitRemainderBytes q := by
  simp only [EmitRequest.sampleBytes, emit_count_eq q, emitBlockBytes, emitRemainderBytes]
  ring

theorem emitRemainderBytes_le {p : Params} {q : EmitRequest} (h : Admitted p q) :
    emitRemainderBytes q ≤ emitBlockBytes q :=
  Nat.mul_le_mul_right _ (Nat.mul_le_mul_right _ h.rem_lt.le)

/-- The samples of full block `k` are `B` bytes (R73). -/
theorem emitFull_slice_length {q : EmitRequest} (hq : q.samples.length = q.sampleBytes) {k : Nat}
    (hk : k < emitComplete q) :
    (slice q.samples (k * emitBlockBytes q) ((k + 1) * emitBlockBytes q)).length = emitBlockBytes q := by
  have h1 := emit_sampleBytes_eq q
  have h2 : (k + 1) * emitBlockBytes q ≤ emitComplete q * emitBlockBytes q := Nat.mul_le_mul_right _ hk
  have h3 := Nat.succ_mul k (emitBlockBytes q)
  rw [slice_length, h3]
  rw [h3] at h2
  omega

/-- The samples of the remainder block are `R` bytes (R74). -/
theorem emitLast_slice_length {q : EmitRequest} (hq : q.samples.length = q.sampleBytes) :
    (slice q.samples (emitComplete q * emitBlockBytes q)
      (emitComplete q * emitBlockBytes q + emitRemainderBytes q)).length = emitRemainderBytes q := by
  have h1 := emit_sampleBytes_eq q
  rw [slice_length]
  omega

theorem emitHeader_length {p : Params} {q : EmitRequest} (h : Admitted p q) :
    (emitHeader p q).length = q.datagramSize.toNat := by
  have := h.size_ge
  simp [emitHeader, recordBytes]
  omega

/-- As many payload datagrams as the header counts, each of the datagram size (R75). -/
theorem emitPayload_length (p : Params) (q : EmitRequest) : (emitPayload p q).length = emitBlocks q := by
  simp only [emitPayload, List.length_append, List.length_map, List.length_range, emitBlocks, blocksFor]
  split <;> rfl

theorem length_of_mem_emitPayload {p : Params} {q : EmitRequest} (h : Admitted p q)
    (hq : q.samples.length = q.sampleBytes) {d : Bytes} (hd : d ∈ emitPayload p q) :
    d.length = q.datagramSize.toNat := by
  have hB := h.block_le
  have hR := emitRemainderBytes_le h
  have hfill : ∀ x : Bytes, x.length ≤ q.datagramSize.toNat →
      (forwardTransform p q.codec (fillDatagram q x)).length = q.datagramSize.toNat := by
    intro x hx
    rw [forwardTransform_length]
    simp only [fillDatagram, List.length_append, zeros_length]
    omega
  simp only [emitPayload, List.mem_append, List.mem_map, List.mem_range] at hd
  rcases hd with ⟨k, hk, rfl⟩ | hd
  · apply hfill
    rw [emitFull_slice_length hq hk]
    exact hB
  · split at hd
    · rw [List.mem_singleton] at hd
      subst hd
      apply hfill
      rw [emitLast_slice_length hq]
      omega
    · simp at hd

/-- `sampleEncoding` is the codec above the bytes per component (R43, R71). -/
theorem sampleEncodingOf_eq (c b : U4) : sampleEncodingOf c b = (c.zeroExtend 8 <<< 4) ||| b.zeroExtend 8 := by
  revert c b
  decide +kernel

theorem bpcOf_emitFields (q : EmitRequest) : bpcOf (emitFields q) = q.bytesPerComponent.toNat := by
  have : ∀ c b : U4, (sampleEncodingOf c b).extractLsb' 0 4 = b := by decide +kernel
  simp only [bpcOf, emitFields, this]

theorem codecOf_emitFields (q : EmitRequest) : codecOf (emitFields q) = q.codec := by
  have : ∀ c b : U4, (sampleEncodingOf c b).extractLsb' 4 4 = c := by decide +kernel
  simp only [codecOf, emitFields, this]

/-- The counts of R70 fit their fields. -/
theorem emitFields_counts {p : Params} {q : EmitRequest} (h : Admitted p q) :
    (emitFields q).blockCount.toNat = emitBlocks q ∧ (emitFields q).completeBlockCount.toNat = emitComplete q ∧
    (emitFields q).remainderSamples.toNat = emitRemainder q := by
  simp only [emitFields, BitVec.toNat_ofNat]
  exact ⟨Nat.mod_eq_of_lt h.bc_lt, Nat.mod_eq_of_lt h.cbc_lt, Nat.mod_eq_of_lt h.rem_fits⟩

/-- What a receiver finds in the header datagram (R63, R72). -/
theorem unpackRecord_emitHeader (p : Params) (q : EmitRequest) :
    unpackRecord (slice (emitHeader p q) 0 42) =
      { toHeaderBody := emitFields q, checksum := p.ck.run (packBody (emitFields q)) } := by
  rw [emitHeader, slice_first _ (packRecord_length _ _), unpackRecord_packRecord]

/-- The header datagram passes the comparison (R64, R72). -/
theorem isHeaderBytes_emitHeader (p : Params) (q : EmitRequest) : isHeaderBytes p.ck.run (emitHeader p q) = true := by
  rw [emitHeader, isHeaderBytes_append _ (by simp), isHeaderBytes_packRecord]

/-- Where a non-empty batch has at least one block (R70). -/
theorem emitBlocks_pos {q : EmitRequest} (h : 1 ≤ q.count.toNat) : 1 ≤ emitBlocks q := by
  have h1 := emit_count_eq q
  simp only [emitBlocks, blocksFor]
  rcases Nat.eq_zero_or_pos (emitRemainder q) with h0 | h0
  · rcases Nat.eq_zero_or_pos (emitComplete q) with h2 | h2
    · rw [h0, h2] at h1
      omega
    · omega
  · rw [if_pos h0]
    omega

end Sys2Proof.Machine
end

