-- ==== Sys2Proof/Laws/PerInstr.lean ====
section
/-!
SUPPORT. A fact about every instruction as syntax, one lemma per constructor: how many bytes its transaction presents
(R40, R41, R51; the command's form is notes/assumptions/8.md).
-/
namespace Sys2Proof.Laws.EncodedSize

open Sys2Proof

/-- The bytes a transaction presents. -/
def bytesOf : Transaction → Bytes
  | .command bs => bs
  | .record bs => bs
  | .datagram bs => bs

/-- The number of bytes of an instruction's format: the select byte and R51's operands at their widths, or the record or the
datagram itself. -/
def size : Instr → Nat
  | .h _ => 42
  | .hd dg => dg.length
  | .pd dg => dg.length
  | .pr dg => dg.length
  | .cksum len _ => 1 + 2 + len.toNat
  | .hdrpack _ => 1 + 34
  | .hdrunpack _ => 1 + 42
  | .classify _ => 1 + 42
  | .emit q => 1 + 29 + q.count.toNat * 2 * q.bytesPerComponent.toNat
  | .accept len _ => 1 + 2 + len.toNat
  | .reserved6 => 1
  | .reserved7 => 1

/-- A well-formed instruction presents as many bytes as its format has, and a command's select byte is the code of R50. -/
def Statement (i : Instr) : Prop :=
  ∀ ck : Bytes → U64, i.wellFormed ck = true →
    (bytesOf (encode i)).length = size i ∧
    ∀ op, i.select = some op → ∃ rest, encode i = .command (BitVec.ofNat 8 op :: rest)

theorem h (record : Bytes) : Statement (.h record) := by
  intro ck hw
  have hw : record.length = 42 := of_decide_eq_true hw
  exact ⟨hw, by simp [Instr.select]⟩

theorem hd (dg : Bytes) : Statement (.hd dg) := fun _ _ => ⟨rfl, by simp [Instr.select]⟩

theorem pd (dg : Bytes) : Statement (.pd dg) := fun _ _ => ⟨rfl, by simp [Instr.select]⟩

theorem pr (dg : Bytes) : Statement (.pr dg) := fun _ _ => ⟨rfl, by simp [Instr.select]⟩

theorem cksum (len : U16) (data : Bytes) : Statement (.cksum len data) := by
  intro ck hw
  simp only [Instr.wellFormed, decide_eq_true_eq] at hw
  refine ⟨?_, by simp [Instr.select, encode]⟩
  simp [bytesOf, encode, size, hw]
  omega

theorem hdrpack (v : HeaderBody) : Statement (.hdrpack v) := by
  intro ck _
  exact ⟨by simp [bytesOf, encode, size], by simp [Instr.select, encode]⟩

theorem hdrunpack (record : Bytes) : Statement (.hdrunpack record) := by
  intro ck hw
  have hw : record.length = 42 := of_decide_eq_true hw
  exact ⟨by simp [bytesOf, encode, size, hw], by simp [Instr.select, encode]⟩

theorem classify (record : Bytes) : Statement (.classify record) := by
  intro ck hw
  have hw : record.length = 42 := of_decide_eq_true hw
  exact ⟨by simp [bytesOf, encode, size, hw], by simp [Instr.select, encode]⟩

theorem emit (q : EmitRequest) : Statement (.emit q) := by
  intro ck hw
  have hw : q.samples.length = q.count.toNat * 2 * q.bytesPerComponent.toNat := of_decide_eq_true hw
  refine ⟨?_, by simp [Instr.select, encode]⟩
  simp [bytesOf, encode, encodeEmit, size, hw]
  omega

theorem accept (len : U16) (dg : Bytes) : Statement (.accept len dg) := by
  intro ck hw
  simp only [Instr.wellFormed, decide_eq_true_eq] at hw
  refine ⟨?_, by simp [Instr.select, encode]⟩
  simp [bytesOf, encode, size, hw]
  omega

theorem reserved6 : Statement .reserved6 := by
  intro ck _
  exact ⟨rfl, by simp [Instr.select, encode]⟩

theorem reserved7 : Statement .reserved7 := by
  intro ck _
  exact ⟨rfl, by simp [Instr.select, encode]⟩

end Sys2Proof.Laws.EncodedSize
end

