-- ==== Sys2Proof/Laws/Step.lean ====
section
/-!
SUPPORT. What an instruction and a step can do: the instructions without state, the four that deliver a datagram, the
inversion of a step into its three cases, and that the decoder gives well-formed instructions.
-/
namespace Sys2Proof.Machine

theorem next_inj {x t : State} (h : Host.Outcome.next (φ := Fault) (ρ := Refusal) x = .next t) : x = t := by
  injection h

/-- The comparison of R49, as a proposition. -/
theorem isHeaderBytes_iff (ck : Bytes → U64) (d : Bytes) :
    isHeaderBytes ck d = true ↔ ck (slice d 0 34) = le 64 (slice d 34 42) := by
  simp [isHeaderBytes]

/-- `bpc` as the remainder the spec writes (R15). -/
theorem bpcOf_eq (h : HeaderBody) : bpcOf h = h.sampleEncoding.toNat % 16 := by
  simp [bpcOf, BitVec.extractLsb'_toNat]

/-- The four instructions that deliver a datagram are one operation (R5, R79). -/
theorem exec_of_receives {d : Bytes} {i : Instr} (h : receives d i) (s : State) :
    exec i s = acceptDatagram d.length d s := by
  rcases h with ⟨len, hl, rfl⟩ | rfl | rfl | rfl
  · simp only [exec, execAccept, hl]
  all_goals rfl

/-- The instructions without state give outputs that depend on the parameters alone (R12, R21). -/
theorem exec_of_stateless {i : Instr} (hi : stateless i = true) :
    ∃ f : Params → Outputs, ∀ s, exec i s = .next (setOut (f s.params) s) := by
  cases i <;> simp only [stateless, Bool.false_eq_true] at hi
  case h r => exact ⟨fun p => recordOutputs (unpackRecord r) (isHeaderBytes p.ck.run r), fun _ => rfl⟩
  case cksum l d => exact ⟨fun p => cksumOutputs (p.ck.run (slice d 0 l.toNat)), fun _ => rfl⟩
  case hdrpack v => exact ⟨fun p => hdrpackOutputs (packRecord p.ck.run v), fun _ => rfl⟩
  case hdrunpack r => exact ⟨fun _ => hdrunpackOutputs (unpackRecord r), fun _ => rfl⟩
  case classify r => exact ⟨fun p => classifyOutputs (isHeaderBytes p.ck.run r), fun _ => rfl⟩
  case emit q => exact ⟨fun p => emitOutputs (packetize p q), fun _ => rfl⟩
  case reserved6 => exact ⟨fun _ => reservedOutputs, fun _ => rfl⟩
  case reserved7 => exact ⟨fun _ => reservedOutputs, fun _ => rfl⟩

/-- None of their outputs is one of ACCEPT's. -/
theorem out_of_stateless {i : Instr} {s t : State} (hi : stateless i = true) (h : exec i s = .next t) :
    ∃ o, t = setOut o s ∧ o.frame = none ∧ o.disp = none ∧ o.frameValid = none := by
  cases i <;> simp only [stateless, Bool.false_eq_true] at hi <;> (have := next_inj h; subst this)
  case emit q =>
    refine ⟨_, rfl, ?_⟩
    cases packetize s.params q <;> exact ⟨rfl, rfl, rfl⟩
  all_goals exact ⟨_, rfl, rfl, rfl, rfl⟩

/-- Every instruction is one without state or a datagram that is accepted. -/
theorem stateless_or_accept (i : Instr) (s : State) :
    stateless i = true ∨ ∃ n d, exec i s = acceptDatagram n d s := by
  cases i
  case accept len d => exact .inr ⟨_, d, rfl⟩
  case hd d => exact .inr ⟨_, d, rfl⟩
  case pd d => exact .inr ⟨_, d, rfl⟩
  case pr d => exact .inr ⟨_, d, rfl⟩
  all_goals exact .inl rfl

/-- A well-formed instruction is one without state or delivers its datagram. -/
theorem stateless_or_receives {ck : Bytes → U64} {i : Instr} (hw : i.wellFormed ck = true) :
    stateless i = true ∨ ∃ d, receives d i := by
  cases i
  case accept len d =>
    simp only [Instr.wellFormed, decide_eq_true_eq] at hw
    exact .inr ⟨d, .inl ⟨len, hw.symm, rfl⟩⟩
  case hd d => exact .inr ⟨d, .inr (.inl rfl)⟩
  case pd d => exact .inr ⟨d, .inr (.inr (.inl rfl))⟩
  case pr d => exact .inr ⟨d, .inr (.inr (.inr rfl))⟩
  all_goals exact .inl rfl

/-- The outputs of the transaction before play no part. -/
theorem acceptDatagram_setOut (n : Nat) (d : Bytes) (o : Outputs) (s : State) :
    acceptDatagram n d (setOut o s) = acceptDatagram n d s := by
  simp only [acceptDatagram, headerPath, payloadPath, collectBlock, completeOrContinue, raiseDisp, finish, setOut,
    adoptHeader, parkHeader, storeBlock, releaseFrame, blockBytes, blockIndex, completedFrame]
  rfl

/-- Accepting a datagram leaves the parameters, the port and the free values' counter alone (R18). -/
theorem acceptDatagram_keeps {n : Nat} {d : Bytes} {s t : State} (h : acceptDatagram n d s = .next t) :
    t.params = s.params ∧ t.port = s.port ∧ t.freeCount = s.freeCount := by
  rcases acceptDatagram_cases h with ⟨-, rfl⟩ | ⟨-, -, ⟨-, rfl⟩ | ⟨-, rfl⟩⟩ | ⟨-, -, -, rfl⟩ |
    ⟨-, -, -, ⟨-, rfl⟩ | ⟨blk, -, -, -, -, -, ⟨-, rfl⟩ | ⟨-, rfl⟩⟩⟩ <;> exact ⟨rfl, rfl, rfl⟩

/-- Everything a step can do when it answers a next state: idle, reset, or one decoded instruction. -/
theorem step_cases {s t : State} (h : step s = .next t) :
    (s.port = [] ∧ t = s) ∨ (∃ es, s.port = .rst :: es ∧ t = applyReset { s with port := es }) ∨
    ∃ tx es i, s.port = .run tx :: es ∧ s.decode tx = .ok i ∧ exec i { s with port := es } = .next t := by
  simp only [step] at h
  split at h
  · next hp => exact .inl ⟨hp, (next_inj h).symm⟩
  · next e es hp =>
    cases e with
    | rst => exact .inr (.inl ⟨es, hp, (next_inj h).symm⟩)
    | run tx =>
      simp only [runEvent, runTransaction] at h
      split at h
      · next i hi => exact .inr (.inr ⟨tx, es, i, hp, hi, h⟩)
      · cases h

/-- A datagram on the receive interface is accepted, whichever format it is read as (R5, R49). -/
theorem step_datagram {s : State} {d : Bytes} {es : List PortEvent} (hp : s.port = .run (.datagram d) :: es)
    (hl : d.length ≤ 65535) : step s = acceptDatagram d.length d { s with port := es } := by
  have hn : (BitVec.ofNat 16 d.length : U16).toNat = d.length := by
    rw [BitVec.toNat_ofNat]
    omega
  simp only [step, hp, runEvent, runTransaction, State.decode, decode, decodeDatagram,
    if_neg (by omega : ¬65535 < d.length)]
  split
  · next i hi =>
    split at hi
    · injection hi with hi
      subst hi
      exact exec_of_receives (.inl ⟨_, hn, rfl⟩) _
    split at hi
    · injection hi with hi
      subst hi
      rfl
    split at hi <;> (injection hi with hi; subst hi; rfl)
  · next e he =>
    split at he
    · cases he
    split at he
    · cases he
    split at he <;> cases he

theorem except_map_ok {α β : Type} {f : α → β} {x : Except DecodeError α} {y : β} (h : x.map f = .ok y) :
    ∃ a, x = .ok a ∧ f a = y := by
  cases x with
  | error e => cases h
  | ok a => exact ⟨a, rfl, by injection h⟩

theorem decodeCounted_ok {bs d : Bytes} {len : U16} (h : decodeCounted bs = .ok (len, d)) : d.length = len.toNat := by
  simp only [decodeCounted] at h
  split at h
  · cases h
  · injection h with h
    injection h with h1 h2
    subst h1 h2
    rw [slice_length]
    omega

theorem decodeRecord_ok {bs r : Bytes} (h : decodeRecord bs = .ok r) : r.length = recordBytes := by
  simp only [decodeRecord] at h
  split at h
  · cases h
  · injection h with h
    subst h
    simp [slice_length, recordBytes] at *
    omega

theorem decodeEmit_ok {bs : Bytes} {q : EmitRequest} (h : decodeEmit bs = .ok q) :
    q.samples.length = q.sampleBytes := by
  simp only [decodeEmit] at h
  split at h
  · cases h
  split at h
  · cases h
  split at h
  · cases h
  next h1 h2 h3 =>
    injection h with h
    subst h
    simp only [EmitRequest.sampleBytes, slice_length]
    simp only [Bool.or_eq_true, decide_eq_true_eq, not_or, not_le] at h2
    have : (BitVec.truncate 4 (le 8 (slice bs 16 17))).toNat = (le 8 (slice bs 16 17)).toNat := by
      simp [BitVec.toNat_setWidth]
      omega
    rw [this]
    omega

/-- What a port presents decodes to a well-formed instruction or to nothing (R49, R51). -/
theorem decode_wellFormed {s : State} {tx : Transaction} {i : Instr} (h : s.decode tx = .ok i)
    (hp : s.params.legal = true) : i.wellFormed s.params.ck.run = true := by
  cases tx with
  | command bs =>
    simp only [State.decode, decode] at h
    cases bs with
    | nil => cases h
    | cons op bs =>
      simp only [decodeCommand] at h
      split at h
      · obtain ⟨a, ha, rfl⟩ := except_map_ok h
        exact decide_eq_true (decodeCounted_ok ha)
      · obtain ⟨a, -, rfl⟩ := except_map_ok h
        rfl
      · obtain ⟨a, ha, rfl⟩ := except_map_ok h
        exact decide_eq_true (decodeRecord_ok ha)
      · obtain ⟨a, ha, rfl⟩ := except_map_ok h
        exact decide_eq_true (decodeRecord_ok ha)
      · obtain ⟨a, ha, rfl⟩ := except_map_ok h
        exact decide_eq_true (decodeEmit_ok ha)
      · obtain ⟨a, ha, rfl⟩ := except_map_ok h
        exact decide_eq_true (decodeCounted_ok ha)
      · injection h with h
        subst h
        rfl
      · injection h with h
        subst h
        rfl
      · cases h
  | record bs =>
    simp only [State.decode, decode] at h
    split at h
    · next hr =>
      injection h with h
      subst h
      exact decide_eq_true hr
    · cases h
  | datagram bs =>
    simp only [Params.legal, Bool.and_eq_true, decide_eq_true_eq] at hp
    have hds := s.params.dsRx.isLt
    simp only [State.decode, decode, decodeDatagram] at h
    split at h
    · cases h
    next h1 =>
    split at h
    · injection h with h
      subst h
      simp [Instr.wellFormed]
      omega
    next h2 =>
    have hs : sizeOk bs = true := by
      simp only [sizeOk, recordBytes, Bool.and_eq_true]
      exact ⟨decide_eq_true (by omega), decide_eq_true (by omega)⟩
    split at h
    · next hh =>
      injection h with h
      subst h
      simp [Instr.wellFormed, hs, hh]
    next hh =>
    split at h <;> (injection h with h; subst h; simp [Instr.wellFormed, hs, hh])

/-- In any state, what a port presents decodes to an instruction without state or to one that delivers its datagram. -/
theorem decode_stateless_or_receives {s : State} {tx : Transaction} {i : Instr} (h : s.decode tx = .ok i) :
    stateless i = true ∨ ∃ d, receives d i := by
  have hp : ∀ d : Bytes, d.length ≤ 65535 → receives d (.accept (BitVec.ofNat 16 d.length) d) := fun d hd =>
    .inl ⟨_, by rw [BitVec.toNat_ofNat]; omega, rfl⟩
  cases tx with
  | command bs =>
    simp only [State.decode, decode] at h
    cases bs with
    | nil => cases h
    | cons op bs =>
      simp only [decodeCommand] at h
      split at h
      case h_6 =>
        obtain ⟨a, ha, rfl⟩ := except_map_ok h
        exact .inr ⟨a.2, .inl ⟨a.1, (decodeCounted_ok ha).symm, rfl⟩⟩
      all_goals first
        | (obtain ⟨a, -, rfl⟩ := except_map_ok h; exact .inl rfl)
        | (injection h with h; subst h; exact .inl rfl)
        | cases h
  | record bs =>
    simp only [State.decode, decode] at h
    split at h
    · injection h with h
      subst h
      exact .inl rfl
    · cases h
  | datagram bs =>
    simp only [State.decode, decode, decodeDatagram] at h
    split at h
    · cases h
    split at h
    · injection h with h
      subst h
      exact .inr ⟨bs, hp bs (by omega)⟩
    split at h
    · injection h with h
      subst h
      exact .inr ⟨bs, .inr (.inl rfl)⟩
    split at h <;> (injection h with h; subst h)
    · exact .inr ⟨bs, .inr (.inr (.inr rfl))⟩
    · exact .inr ⟨bs, .inr (.inr (.inl rfl))⟩

end Sys2Proof.Machine
end

