-- ==== Sys2Proof/Machine/Transcript.lean ====
section
/-!
DEFINITION. The textual notation for transcripts (spec/30_encoding.md R54): one line per transaction, as lists of characters.
It describes inputs, outputs and states; no step reads it. The wire formats are accepted, so their lines are ACCEPT's; a bare
record and the reserved selects have no line in R54.
-/
namespace Sys2Proof.Machine

/-- The name of a disposition (R98). -/
def Disp.name : Disp → String
  | .dropSize => "DROP_SIZE"
  | .hdrAdopted => "HDR_ADOPTED"
  | .hdrUnusable => "HDR_UNUSABLE"
  | .payNosync => "PAY_NOSYNC"
  | .payStored => "PAY_STORED"
  | .frameDone => "FRAME_DONE"
  | .payCodecFail => "PAY_CODEC_FAIL"

/-- Two hexadecimal digits. -/
def hexByte (b : Byte) : List Char := [Nat.digitChar (b.toNat / 16), Nat.digitChar (b.toNat % 16)]

/-- A hex byte string, lowest address first. -/
def hexBytes (bs : Bytes) : List Char := bs.flatMap hexByte

/-- A checksum as 16 hexadecimal digits, most significant first. -/
def hexWord (v : U64) : List Char := hexBytes (toLe 8 v).reverse

/-- A number in decimal. -/
def decimal (n : Nat) : List Char := Nat.toDigits 10 n

/-- A named number, ` name=n`. -/
def field (name : String) (n : Nat) : List Char := ' ' :: (name.toList ++ '=' :: decimal n)

/-- A bit. -/
def bit (b : Bool) : List Char := if b then ['1'] else ['0']

/-- The eleven fields before the checksum, in the notation's order and with its abbreviations. -/
def fieldsText (h : HeaderBody) : List Char :=
  field "cf" h.centerFrequency.toNat ++ field "sr" h.sampleRate.toNat ++ field "se" h.sampleEncoding.toNat ++
  field "sb" h.sampleBits.toNat ++ field "ds" h.datagramSize.toNat ++ field "fsc" h.frameSampleCount.toNat ++
  field "bc" h.blockCount.toNat ++ field "rem" h.remainderSamples.toNat ++ field "cbc" h.completeBlockCount.toNat ++
  field "sec" h.captureSeconds.toNat ++ field "us" h.captureMicros.toNat

/-- The datagrams of an EMIT, ` dg0=.. dg1=..`. -/
def datagramsText : Nat → List Bytes → List Char
  | _, [] => []
  | k, d :: ds => " dg".toList ++ decimal k ++ '=' :: hexBytes d ++ datagramsText (k + 1) ds

/-- The line of an instruction before its arrow. -/
def inputText : Instr → Option (List Char)
  | .h _ => none
  | .hd dg => some ("ACCEPT ".toList ++ hexBytes dg)
  | .pd dg => some ("ACCEPT ".toList ++ hexBytes dg)
  | .pr dg => some ("ACCEPT ".toList ++ hexBytes dg)
  | .cksum _ data => some ("CKSUM ".toList ++ hexBytes data)
  | .hdrpack v => some ("HDRPACK".toList ++ fieldsText v)
  | .hdrunpack r => some ("HDRUNPACK ".toList ++ hexBytes r)
  | .classify r => some ("CLASSIFY ".toList ++ hexBytes r)
  | .emit q => some ("EMIT".toList ++ field "N" q.count.toNat ++ " samples=".toList ++ hexBytes q.samples ++
      field "cf" q.frequency.toNat ++ field "sr" q.sampleRate.toNat ++ field "bpc" q.bytesPerComponent.toNat ++
      field "bits" q.bitsPerComponent.toNat ++ field "ds" q.datagramSize.toNat ++ field "codec" q.codec.toNat ++
      field "ts" q.tsSec.toNat ++ '.' :: decimal q.tsUsec.toNat)
  | .accept _ dg => some ("ACCEPT ".toList ++ hexBytes dg)
  | .reserved6 => none
  | .reserved7 => none

/-- What stands after the arrow: each output that has a value. -/
def outputText (o : Outputs) : List Char :=
  (match o.ck with | some v => " ck=".toList ++ hexWord v | none => []) ++
  (match o.record with | some r => " rec=".toList ++ hexBytes r | none => []) ++
  (match o.fields with
    | some h => fieldsText h.toHeaderBody ++ " ck=".toList ++ hexWord h.checksum
    | none => []) ++
  (match o.isHeader with | some b => " is_header=".toList ++ bit b | none => []) ++
  (match o.emitOk with
    | some b => " emit_ok=".toList ++ bit b ++ datagramsText 0 o.datagrams
    | none => []) ++
  (match o.disp with | some d => " disp=".toList ++ d.name.toList | none => []) ++
  (match o.abandoned with | some b => " abandoned=".toList ++ bit b | none => []) ++
  (match o.frame with | some f => " frame=".toList ++ hexBytes f.data | none => [])

/-- The state after a line, between the notation's curly brackets. -/
def State.text (s : State) : List Char :=
  Char.ofNat 123 ::
    ((match s.rsm with
      | .awaitingHeader => "AWAITING_HEADER".toList
      | .collecting =>
        "COLLECTING".toList ++ field "br" s.blocksRemaining.toNat ++ field "off" s.nextOffset.toNat) ++ [Char.ofNat 125])

/-- The line of a transaction that ended with the outputs `o`. -/
def transcript (i : Instr) (o : Outputs) : Option (List Char) :=
  (inputText i).map fun t => t ++ " ->".toList ++ outputText o

end Sys2Proof.Machine
end

