-- ==== Sys2Proof/Tests/Slice0.lean ====
section
/-!
SUPPORT. Tests: ill-formed terms that WellFormed refuses, words of the encoding, single steps on the vectors of
spec/95_test_vectors.md, and a witness for the hypotheses of every statement. Every expected value is the spec's own.
-/
-- The theorems below are checked one after another: their evaluations side by side take more threads than the check has.
set_option Elab.async false

namespace Sys2Proof.Tests

open Sys2Proof Sys2Proof.Machine

/-- A byte string written in hexadecimal, lowest address first. -/
def hexString (n w : Nat) : Bytes := (toLeNat n w).reverse

/-- The first `n` bytes of a stream whose byte `i` is `a * i + b`, from byte `i`. -/
def stream (a b i n : Nat) : Bytes := (List.range n).map fun k => BitVec.ofNat 8 (a * (i + k) + b)

/-- The receiver of spec/95_test_vectors.md section 2.6: DS_RX = 48, BUF_BYTES = 4096, CK_ref, no codecs. -/
def rx : State := { State.reset with params := { State.reset.params with ck := .reference } }

def p1Header : Bytes :=
  hexString 42 0x0807060504030201443322110108300032000000030002000200786756053f420f002e04a04d9a85b60b

/-- The header datagram of the second frame. -/
def p2Header : Bytes :=
  hexString 42 0x080706050403020144332211010830001e00000002000600010079675605000000003501083851471af5

/-- The P1 datagrams of section 3: the header, two full blocks, the remainder block. -/
def dg0 : Bytes := p1Header ++ zeros 6
def dg1 : Bytes := stream 7 1 0 48
def dg2 : Bytes := stream 7 1 48 48
def dg3 : Bytes := stream 7 1 96 4 ++ zeros 44

/-- P1's header with `se` = 0x11, the codec nibble set (section 2.3). -/
def codedHeader : Bytes :=
  hexString 34 0x0807060504030201443322111108300032000000030002000200786756053f420f00 ++
  hexString 8 0x393d4753d5c733d8

/-- P1's header with `fsc` = 51 (section 2.3, check U6). -/
def unusableHeader : Bytes :=
  hexString 34 0x0807060504030201443322110108300033000000030002000200786756053f420f00 ++
  hexString 8 0xf45aa689d005158d

/-- P1's frame in progress with `br` blocks to come and `off` bytes stored. -/
def collecting (br : U16) (off : Nat) : State :=
  { rx with
    rsm := .collecting
    hdr := unpackRecord p1Header
    blocksRemaining := br
    nextOffset := BitVec.ofNat 37 off
    buf := Memory.writeBytes [] 0 (stream 7 1 0 off) }

/-- A receiver with one codec, for nibble 1, whose transform has no result for any datagram, collecting a frame that
uses it. -/
def collectingCoded : State :=
  { collecting 3 0 with
    hdr := unpackRecord codedHeader
    params := { rx.params with codecInv := [⟨1, .table []⟩] } }

/-- P1's EMIT (section 3). -/
def p1Request : EmitRequest where
  count := 50
  samples := stream 7 1 0 100
  frequency := 0x0102030405060708
  sampleRate := 0x11223344
  bytesPerComponent := 1
  bitsPerComponent := 8
  datagramSize := 48
  codec := 0
  tsSec := 0x05566778
  tsUsec := 999999

/-- The outputs a step answers with, if it answers a next state. -/
def outputs : Host.Outcome State Fault Refusal → Option Outputs
  | .next t => some t.out
  | .fault _ => none
  | .refused _ => none

/-- The state it answers. -/
def after : Host.Outcome State Fault Refusal → Option State
  | .next t => some t
  | .fault _ => none
  | .refused _ => none

/-- A row of section 2.6: the outputs of a datagram, then the state after it. -/
structure Row where
  disp      : Option Disp
  abandoned : Option Bool
  valid     : Option Bool
  rsm       : RsmState
  br        : Nat
  off       : Nat
deriving DecidableEq

/-- What a delivered datagram gives. -/
def row (d : Bytes) (s : State) : Option Row :=
  (after (runTransaction (.datagram d) s)).map fun t =>
    ⟨t.out.disp, t.out.abandoned, t.out.frameValid, t.rsm, t.blocksRemaining.toNat, t.nextOffset.toNat⟩

/-! ## WellFormed refuses -/

theorem test_wellFormed_h : Instr.wellFormed ckRef (.h (zeros 41)) = false := by decide +kernel

theorem test_wellFormed_hd_size : Instr.wellFormed ckRef (.hd (zeros 41)) = false := by decide +kernel

theorem test_wellFormed_hd_payload : Instr.wellFormed ckRef (.hd dg1) = false := by decide +kernel

theorem test_wellFormed_pd_header : Instr.wellFormed ckRef (.pd dg0) = false := by decide +kernel

theorem test_wellFormed_pr_header : Instr.wellFormed ckRef (.pr dg0) = false := by decide +kernel

theorem test_wellFormed_pr_size : Instr.wellFormed ckRef (.pr [0x01#8]) = false := by decide +kernel

theorem test_wellFormed_cksum : Instr.wellFormed ckRef (.cksum 2 [0x00#8]) = false := by decide +kernel

theorem test_wellFormed_hdrunpack : Instr.wellFormed ckRef (.hdrunpack (zeros 43)) = false := by decide +kernel

theorem test_wellFormed_classify : Instr.wellFormed ckRef (.classify []) = false := by decide +kernel

theorem test_wellFormed_emit : Instr.wellFormed ckRef (.emit { p1Request with count := 51 }) = false := by decide +kernel

theorem test_wellFormed_accept : Instr.wellFormed ckRef (.accept 47 (zeros 48)) = false := by decide +kernel

/-! ## Words of the encoding (R41, R44, R46, R48, R50, R51), one per constructor -/

theorem test_decode_h : decode ckRef 48 false (.record p1Header) = .ok (.h p1Header) := by decide +kernel

theorem test_decode_hd : decode ckRef 48 false (.datagram dg0) = .ok (.hd dg0) := by decide +kernel

theorem test_decode_pd : decode ckRef 48 false (.datagram dg1) = .ok (.pd dg1) := by decide +kernel

theorem test_decode_pr : decode ckRef 48 true (.datagram dg3) = .ok (.pr dg3) := by decide +kernel

theorem test_decode_cksum :
    decodeCommand [0x00#8, 0x02#8, 0x00#8, 0x01#8, 0x00#8] = .ok (.cksum 2 [0x01#8, 0x00#8]) := by decide +kernel

theorem test_decode_hdrpack :
    decodeCommand (0x01#8 :: hexString 34 0x08070605040302010c0b0a090d0e100f14131211161518171a191e1d1c1b2221201f) =
      .ok (.hdrpack ⟨0x0102030405060708, 0x090a0b0c, 0x0d, 0x0e, 0x0f10, 0x11121314, 0x1516, 0x1718, 0x191a,
        0x1b1c1d1e, 0x1f202122⟩) := by decide +kernel

theorem test_decode_hdrunpack : decodeCommand (0x02#8 :: p1Header) = .ok (.hdrunpack p1Header) := by decide +kernel

theorem test_decode_classify : decodeCommand (0x03#8 :: p1Header) = .ok (.classify p1Header) := by decide +kernel

theorem test_decode_emit :
    decodeCommand (0x04#8 :: (hexString 29 0x010000000807060504030201443322110108300000786756053f420f00 ++
      [0xaa#8, 0xbb#8])) = .ok (.emit { p1Request with count := 1, samples := [0xaa#8, 0xbb#8] }) := by decide +kernel

theorem test_decode_accept :
    decodeCommand [0x05#8, 0x01#8, 0x00#8, 0xff#8] = .ok (.accept 1 [0xff#8]) := by decide +kernel

theorem test_decode_reserved6 : decodeCommand [0x06#8] = .ok .reserved6 := by decide +kernel

theorem test_decode_reserved7 : decodeCommand [0x07#8, 0x55#8] = .ok .reserved7 := by decide +kernel

/-- What is no transaction is rejected by name. -/
theorem test_decode_rejects :
    decodeCommand [] = .error .noSelect ∧ decodeCommand [0x0d#8] = .error .selectTooWide ∧
    decodeCommand [0x00#8, 0x02#8, 0x00#8, 0x01#8] = .error .truncated ∧
    decodeCommand (0x04#8 :: hexString 29 0x000000000807060504030201443322111008300000786756053f420f00) =
      .error .nibbleTooWide ∧
    decode ckRef 48 false (.record (zeros 43)) = .error .recordSize := by decide +kernel

/-- A datagram of another size is none of the formats: ACCEPT drops it (R80). -/
theorem test_decode_wrong_size : decode ckRef 48 false (.datagram (zeros 47)) = .ok (.accept 47 (zeros 47)) := by
  decide +kernel

/-! ## Single steps on the spec's vectors -/

/-- Section 2.1: "123456789". -/
theorem test_cksum :
    outputs (exec (.cksum 9 (hexString 9 0x313233343536373839)) rx) = some (cksumOutputs 0xe9c6d914c4b8d9ca#64) := by
  decide +kernel

/-- Section 2.1: leading zeros vanish, trailing ones do not. -/
theorem test_cksum_zeros :
    ckRef (hexString 3 0x000001) = 0x7ad870c830358979#64 ∧ ckRef (hexString 2 0x0100) = 0x89e99ffd73bddf69#64 := by
  decide +kernel

/-- V1 of section 2.2. -/
theorem test_hdrpack_v1 :
    (outputs (exec (.hdrpack ⟨100000000, 48000, 2, 16, 1024, 2000, 8, 208, 7, 1700000000, 123456⟩) rx)).map (·.record) =
      some (some (hexString 42
        0x00e1f5050000000080bb000002100004d00700000800d000070000f1536540e20100012bb94f6330a50a)) := by
  decide +kernel

/-- V2 of section 2.2: every field another byte pattern. -/
theorem test_hdrpack_v2 :
    (outputs (exec (.hdrpack ⟨0x0102030405060708, 0x090a0b0c, 0x0d, 0x0e, 0x0f10, 0x11121314, 0x1516, 0x1718, 0x191a,
      0x1b1c1d1e, 0x1f202122⟩) rx)).map (·.record) =
      some (some (hexString 42
        0x08070605040302010c0b0a090d0e100f14131211161518171a191e1d1c1b2221201fa3f2d9de442073e0)) := by
  decide +kernel

/-- Section 3: the header of P1, read back. -/
theorem test_hdrunpack :
    (outputs (exec (.hdrunpack p1Header) rx)).map (·.fields) =
      some (some { toHeaderBody := ⟨0x0102030405060708, 0x11223344, 1, 8, 48, 50, 3, 2, 2, 0x05566778, 999999⟩
                   checksum := 0x0bb6859a4da0042e }) := by
  decide +kernel

/-- V5 of section 2.2: a good record, and the last byte of the span damaged. -/
theorem test_classify :
    outputs (exec (.classify p1Header) rx) = some (classifyOutputs true) ∧
    outputs (exec (.classify (p1Header.set 33 0x80)) rx) = some (classifyOutputs false) := by
  decide +kernel

/-- A bare record: the fields and the classification together. -/
theorem test_record :
    (outputs (exec (.h p1Header) rx)).map (fun o => (o.fields.map (·.checksum), o.isHeader)) =
      some (some 0x0bb6859a4da0042e, some true) := by
  decide +kernel

/-- Section 3: the datagrams of P1's EMIT. -/
theorem test_emit : outputs (exec (.emit p1Request) rx) = some (emitOutputs (some [dg0, dg1, dg2, dg3])) := by
  decide +kernel

/-- Section 2.4: refusals E1, E2 and E4, and the smallest datagram admitted. -/
theorem test_emit_refused :
    outputs (exec (.emit { p1Request with bytesPerComponent := 0, samples := [] }) rx) = some (emitOutputs none) ∧
    outputs (exec (.emit { p1Request with datagramSize := 41 }) rx) = some (emitOutputs none) ∧
    outputs (exec (.emit { p1Request with codec := 1 }) rx) = some (emitOutputs none) ∧
    (outputs (exec (.emit { p1Request with count := 1, datagramSize := 42, samples := zeros 2 }) rx)).map
      (·.datagrams.length) = some 2 := by
  decide +kernel

/-- Section 2.4: the counts of a block that does not fill its datagram, and of the largest block count and one more. -/
theorem test_emit_counts :
    (emitSpb { p1Request with count := 10, datagramSize := 50, bytesPerComponent := 3 } = 8 ∧
      emitBlocks { p1Request with count := 10, datagramSize := 50, bytesPerComponent := 3 } = 2) ∧
    refusedE3 { p1Request with count := 16776960, datagramSize := 1024, bytesPerComponent := 2 } = false ∧
    refusedE3 { p1Request with count := 16776961, datagramSize := 1024, bytesPerComponent := 2 } = true := by
  decide +kernel

/-- Section 2.6: the rows of the transition table in AWAITING_HEADER. -/
theorem test_accept_awaiting :
    row (zeros 47) rx = some ⟨some .dropSize, some false, some false, .awaitingHeader, 0, 0⟩ ∧
    row dg0 rx = some ⟨some .hdrAdopted, some false, some false, .collecting, 3, 0⟩ ∧
    row (zeros 48) rx = some ⟨some .hdrUnusable, some false, some false, .awaitingHeader, 0, 0⟩ ∧
    row dg1 rx = some ⟨some .payNosync, some false, some false, .awaitingHeader, 0, 0⟩ := by
  decide +kernel

/-- Section 2.6: the rows in COLLECTING with `br` = 2, `off` = 48. -/
theorem test_accept_collecting :
    row (zeros 47) (collecting 2 48) = some ⟨some .dropSize, some false, some false, .collecting, 2, 48⟩ ∧
    row (p2Header ++ zeros 6) (collecting 2 48) = some ⟨some .hdrAdopted, some true, some false, .collecting, 2, 0⟩ ∧
    row (zeros 48) (collecting 2 48) = some ⟨some .hdrUnusable, some true, some false, .awaitingHeader, 2, 48⟩ := by
  decide +kernel

/-- Section 2.6: a full block is stored. -/
theorem test_pd :
    row dg1 (collecting 3 0) = some ⟨some .payStored, some false, some false, .collecting, 2, 48⟩ ∧
    (after (exec (.pd dg1) (collecting 3 0))).map (fun t => Memory.readBytes t.buf 0 48) = some dg1 := by
  decide +kernel

/-- Section 2.6 and program P1: the remainder block completes the frame, which is the batch. -/
theorem test_pr :
    (outputs (exec (.pr dg3) (collecting 1 96))).map (fun o => (o.disp, o.frame.map (·.data))) =
      some (some .frameDone, some p1Request.samples) := by
  decide +kernel

/-- Section 2.3, `fsc` = 51: check U6 fails, and `hdr` is written all the same. -/
theorem test_hd_unusable :
    (after (exec (.hd (unusableHeader ++ zeros 6)) rx)).map
      (fun t => (t.out.disp, t.rsm, t.hdr.frameSampleCount.toNat)) =
      some (some .hdrUnusable, .awaitingHeader, 51) := by
  decide +kernel

/-- Section 2.6, last row: a codec without a result for the datagram. -/
theorem test_codec_fails :
    row dg1 collectingCoded = some ⟨some .payCodecFail, some false, some false, .collecting, 3, 0⟩ := by
  decide +kernel

/-- A codec for nibble 1 that reverses P1's first block and leaves the other two as they are. -/
def reversing : Params :=
  { rx.params with
    codecFwd := [⟨1, .table [(dg1, dg1.reverse)]⟩]
    codecInv := [⟨1, .table [(dg1.reverse, dg1), (dg2, dg2), (dg3, dg3)]⟩] }

/-- R76, R87: EMIT transforms the payload and never the header; ACCEPT stores the inverse image of what arrived. -/
theorem test_codec_transforms :
    (outputs (exec (.emit { p1Request with codec := 1 }) { rx with params := reversing })).map
      (fun o => (o.datagrams.map (·.take 34), o.datagrams[1]?)) =
      some ([slice codedHeader 0 34, dg1.reverse.take 34, dg2.take 34, dg3.take 34], some dg1.reverse) ∧
    (after (exec (.pd dg1.reverse) { collectingCoded with params := reversing })).map
      (fun t => Memory.readBytes t.buf 0 48) = some dg1 := by
  decide +kernel

/-- R52. -/
theorem test_reserved6 : (outputs (exec .reserved6 (collecting 3 0))).map (·.cmdErr) = some true := by decide +kernel

/-- R52. -/
theorem test_reserved7 : after (exec .reserved7 rx) = some (setOut reservedOutputs rx) := by decide +kernel

/-- Section 2.3: the checks U1, U2, U4, U5, U7, U8, U9 fail one by one; BUF_BYTES = 100 just holds the frame. -/
theorem test_usable_checks :
    let h := (unpackRecord p1Header).toHeaderBody
    usable rx.params h = true ∧
    usable rx.params { h with sampleEncoding := 0 } = false ∧
    usable rx.params { h with datagramSize := 64 } = false ∧
    usable rx.params { h with frameSampleCount := 0, blockCount := 0, remainderSamples := 0, completeBlockCount := 0 } =
      false ∧
    usable rx.params { h with blockCount := 4 } = false ∧
    usable rx.params { h with frameSampleCount := 48, blockCount := 2, remainderSamples := 24, completeBlockCount := 1 } =
      false ∧
    usable { rx.params with bufBytes := 99 } h = false ∧ usable { rx.params with bufBytes := 100 } h = true ∧
    usable rx.params { h with sampleEncoding := 0x11 } = false := by
  decide +kernel

/-- A line of R54, with section 2.1's "abc". -/
theorem test_transcript :
    transcript (.cksum 3 (hexString 3 0x616263)) (cksumOutputs 0x4431bb39b27363a7#64) =
      some "CKSUM 616263 -> ck=4431bb39b27363a7".toList := by
  decide +kernel

/-- The opcode table's row 101 as the first input after reset: a zero length is dropped. -/
theorem test_withFetchWord :
    (outputs (step (State.reset.withFetchWord 3 5))).map (·.disp) = some (some .dropSize) ∧
    decodeTableWord 3 5 = some (.accept 0 []) := by
  decide +kernel

/-! ## Witnesses: states and operands that meet the hypotheses of each statement -/

/-- From a computed answer to the next state it is. -/
theorem exists_next {o : Host.Outcome State Fault Refusal} (p : State → Bool) (h : (after o).any p = true) :
    ∃ t, o = .next t ∧ p t = true := by
  cases o with
  | next t => exact ⟨t, rfl, h⟩
  | fault _ => simp [after] at h
  | refused _ => simp [after] at h

/-- `s` with inputs presented. -/
def withPort (s : State) (es : List PortEvent) : State := { s with port := es }

/-- An EMIT of zeros with spb = 21 (two-byte samples, 42-byte datagrams). -/
def zeroRequest (n : U32) : EmitRequest :=
  { p1Request with count := n, datagramSize := 42, samples := zeros (n.toNat * 2) }

theorem zeroRequest_samples (n : U32) : (zeroRequest n).samples.length = (zeroRequest n).sampleBytes := by
  have h : (zeroRequest n).bytesPerComponent.toNat = 1 := rfl
  simp only [EmitRequest.sampleBytes, h, Nat.mul_one]
  exact zeros_length _

/-- An empty operand and the longest. -/
theorem witness_CksumGivesChecksumOfData :
    ([] : Bytes).length = (0 : U16).toNat ∧ (zeros 65535).length = (65535 : U16).toNat :=
  ⟨rfl, zeros_length _⟩

theorem witness_HdrunpackGivesFields : p1Header.length = 42 := by decide +kernel

theorem witness_ClassifyComparesChecksum : p1Header.length = 42 ∧ (p1Header.set 33 0x80).length = 42 := by
  decide +kernel

theorem witness_RecordIsUnpackedAndClassified : p1Header.length = 42 := by decide +kernel

/-- Each check on its own, E3 by one sample past the largest block count; and that count itself admitted. -/
theorem witness_EmitRefusedExactlyOnItsChecks :
    (∀ n, (zeroRequest n).samples.length = (zeroRequest n).sampleBytes) ∧
    emitRefused rx.params (zeroRequest 1376235) = false ∧ refusedE3 (zeroRequest 1376236) = true ∧
    (({ p1Request with bytesPerComponent := 0, samples := [] } : EmitRequest).samples.length =
      EmitRequest.sampleBytes { p1Request with bytesPerComponent := 0, samples := [] }) ∧
    refusedE1 { p1Request with bytesPerComponent := 0, samples := [] } = true ∧
    p1Request.samples.length = p1Request.sampleBytes ∧ refusedE2 { p1Request with datagramSize := 41 } = true ∧
    refusedE4 rx.params { p1Request with codec := 1 } = true :=
  ⟨zeroRequest_samples, by decide +kernel⟩

/-- With a remainder block, without one, and with no block at all. -/
theorem witness_EmitSendsHeaderThenBlocks :
    (p1Request.samples.length = p1Request.sampleBytes ∧ emitRefused rx.params p1Request = false) ∧
    ((zeroRequest 42).samples.length = (zeroRequest 42).sampleBytes ∧
      emitRefused rx.params (zeroRequest 42) = false ∧ emitRemainder (zeroRequest 42) = 0) ∧
    ((zeroRequest 0).samples.length = (zeroRequest 0).sampleBytes ∧ emitRefused rx.params (zeroRequest 0) = false) := by
  decide +kernel

theorem witness_EmitCountAndSizes :
    (p1Request.samples.length = p1Request.sampleBytes ∧ emitRefused rx.params p1Request = false) ∧
    ((zeroRequest 0).samples.length = (zeroRequest 0).sampleBytes ∧ emitRefused rx.params (zeroRequest 0) = false ∧
      (zeroRequest 0).count = 0) := by
  decide +kernel

theorem witness_EmittedHeaderIsUsable :
    (∃ t, exec (.emit p1Request) rx = .next t) ∧ p1Request.samples.length = p1Request.sampleBytes ∧
    emitRefused rx.params p1Request = false ∧ rx.params.dsRx = p1Request.datagramSize ∧ 1 ≤ p1Request.count.toNat ∧
    p1Request.count.toNat * 2 * p1Request.bytesPerComponent.toNat ≤ rx.params.bufBytes ∧
    codecInvDefined rx.params p1Request.codec = true :=
  ⟨⟨_, rfl⟩, by decide +kernel⟩

/-- A record that is a header, and one that is not. -/
theorem witness_PackAndUnpackAreInverse :
    (p1Header.length = 42 ∧ isHeaderBytes rx.params.ck.run p1Header = true) ∧
    (p1Header.set 33 0x80).length = 42 ∧ isHeaderBytes rx.params.ck.run (p1Header.set 33 0x80) = false := by
  decide +kernel

theorem witness_PackedRecordsAreHeaders : p1Header.length = 42 := by decide +kernel

theorem witness_CkRefIsLinearAndBlindToZeros :
    (p1Header.length = p2Header.length ∧ p1Header.length = 42 ∧ isHeaderBytes ckRef p1Header = true ∧
      isHeaderBytes ckRef p2Header = true) ∧
    (receives (zeros 42 ++ zeros 6) (.hd (zeros 42 ++ zeros 6)) ∧ (collecting 2 48).params.ck = .reference ∧
      (zeros 42 ++ zeros 6).length = (collecting 2 48).params.dsRx.toNat) :=
  ⟨by decide +kernel, .inr (.inl rfl), by decide +kernel⟩

/-- One byte too few and one too many. -/
theorem witness_WrongSizeIsDropped :
    (receives (zeros 47) (.accept 47 (zeros 47)) ∧ (zeros 47).length ≠ rx.params.dsRx.toNat) ∧
    (receives (zeros 49) (.accept 49 (zeros 49)) ∧ (zeros 49).length ≠ (collecting 3 0).params.dsRx.toNat) :=
  ⟨⟨.inl ⟨47, by decide, rfl⟩, by decide +kernel⟩, .inl ⟨49, by decide, rfl⟩, by decide +kernel⟩

/-- A header while collecting, and one that is not usable while awaiting. -/
theorem witness_HeaderAlwaysWins :
    (receives dg0 (.hd dg0) ∧ dg0.length = (collecting 2 48).params.dsRx.toNat ∧
      (collecting 2 48).params.ck.run (slice dg0 0 34) = le 64 (slice dg0 34 42)) ∧
    (receives (zeros 48) (.hd (zeros 48)) ∧ (zeros 48).length = rx.params.dsRx.toNat ∧
      rx.params.ck.run (slice (zeros 48) 0 34) = le 64 (slice (zeros 48) 34 42)) :=
  ⟨⟨.inr (.inl rfl), by decide +kernel⟩, .inr (.inl rfl), by decide +kernel⟩

theorem witness_UsableHeaderIsAdopted :
    receives dg0 (.hd dg0) ∧ dg0.length = rx.params.dsRx.toNat ∧
    rx.params.ck.run (slice dg0 0 34) = le 64 (slice dg0 34 42) ∧
    usable rx.params (unpackRecord (slice dg0 0 42)).toHeaderBody = true :=
  ⟨.inr (.inl rfl), by decide +kernel⟩

theorem witness_UnusableHeaderCollectsNothing :
    receives (unusableHeader ++ zeros 6) (.accept 48 (unusableHeader ++ zeros 6)) ∧
    (unusableHeader ++ zeros 6).length = rx.params.dsRx.toNat ∧
    rx.params.ck.run (slice (unusableHeader ++ zeros 6) 0 34) = le 64 (slice (unusableHeader ++ zeros 6) 34 42) ∧
    usable rx.params (unpackRecord (slice (unusableHeader ++ zeros 6) 0 42)).toHeaderBody = false :=
  ⟨.inl ⟨48, by decide +kernel, rfl⟩, by decide +kernel⟩

theorem witness_PayloadWithoutHeaderIsDiscarded :
    receives dg1 (.pd dg1) ∧ dg1.length = rx.params.dsRx.toNat ∧
    rx.params.ck.run (slice dg1 0 34) ≠ le 64 (slice dg1 34 42) ∧ rx.rsm = .awaitingHeader :=
  ⟨.inr (.inr (.inl rfl)), by decide +kernel⟩

theorem witness_CodecFailureChangesNothing :
    collectingCoded.inv = true ∧ receives dg1 (.pd dg1) ∧ dg1.length = collectingCoded.params.dsRx.toNat ∧
    collectingCoded.params.ck.run (slice dg1 0 34) ≠ le 64 (slice dg1 34 42) ∧ collectingCoded.rsm = .collecting ∧
    inverseTransform collectingCoded.params (collectingCoded.hdr.sampleEncoding.extractLsb' 4 4) dg1 = none :=
  ⟨by decide +kernel, .inr (.inr (.inl rfl)), by decide +kernel⟩

/-- The first block, and the last; the header's codec nibble is 0. -/
theorem witness_PayloadBlockIsStored :
    (collecting 3 0).hdr.sampleEncoding.extractLsb' 4 4 = 0 ∧
    ((collecting 3 0).inv = true ∧ receives dg1 (.pd dg1) ∧ dg1.length = (collecting 3 0).params.dsRx.toNat ∧
      (collecting 3 0).params.ck.run (slice dg1 0 34) ≠ le 64 (slice dg1 34 42) ∧
      (collecting 3 0).rsm = .collecting ∧
      inverseTransform (collecting 3 0).params ((collecting 3 0).hdr.sampleEncoding.extractLsb' 4 4) dg1 = some dg1) ∧
    ((collecting 1 96).inv = true ∧ receives dg3 (.pr dg3) ∧ dg3.length = (collecting 1 96).params.dsRx.toNat ∧
      (collecting 1 96).params.ck.run (slice dg3 0 34) ≠ le 64 (slice dg3 34 42) ∧
      (collecting 1 96).rsm = .collecting ∧
      inverseTransform (collecting 1 96).params ((collecting 1 96).hdr.sampleEncoding.extractLsb' 4 4) dg3 = some dg3 ∧
      (collecting 1 96).blocksRemaining.toNat = 1 ∧ 0 < (collecting 1 96).hdr.remainderSamples.toNat) :=
  ⟨rfl, ⟨by decide +kernel, .inr (.inr (.inl rfl)), by decide +kernel⟩, by decide +kernel, .inr (.inr (.inr rfl)),
    by decide +kernel⟩

/-- One block remaining, and two. -/
theorem witness_LastBlockReturnsFrame :
    ((collecting 1 96).inv = true ∧ receives dg3 (.pr dg3) ∧ dg3.length = (collecting 1 96).params.dsRx.toNat ∧
      (collecting 1 96).params.ck.run (slice dg3 0 34) ≠ le 64 (slice dg3 34 42) ∧
      (collecting 1 96).rsm = .collecting ∧
      inverseTransform (collecting 1 96).params ((collecting 1 96).hdr.sampleEncoding.extractLsb' 4 4) dg3 = some dg3 ∧
      (collecting 1 96).blocksRemaining.toNat = 1) ∧
    ((collecting 2 48).inv = true ∧ receives dg2 (.pd dg2) ∧ dg2.length = (collecting 2 48).params.dsRx.toNat ∧
      (collecting 2 48).params.ck.run (slice dg2 0 34) ≠ le 64 (slice dg2 34 42) ∧
      (collecting 2 48).rsm = .collecting ∧
      inverseTransform (collecting 2 48).params ((collecting 2 48).hdr.sampleEncoding.extractLsb' 4 4) dg2 = some dg2 ∧
      ¬(collecting 2 48).blocksRemaining.toNat = 1) :=
  ⟨⟨by decide +kernel, .inr (.inr (.inr rfl)), by decide +kernel⟩, by decide +kernel, .inr (.inr (.inl rfl)),
    by decide +kernel⟩

/-- One state and datagram for each of the seven rows, where the rows meet: both states of `rsm_state`, sizes 47 and 48,
one block remaining and two. -/
theorem witness_TransitionTable :
    receives dg1 (.pd dg1) ∧
    (rx.inv = true ∧ (collecting 2 48).inv = true ∧ (collecting 1 96).inv = true ∧ collectingCoded.inv = true) ∧
    (zeros 47).length ≠ rx.params.dsRx.toNat ∧
    (dg0.length = rx.params.dsRx.toNat ∧ isHeaderBytes rx.params.ck.run dg0 = true ∧
      usable rx.params (unpackRecord (slice dg0 0 42)).toHeaderBody = true) ∧
    ((zeros 48).length = rx.params.dsRx.toNat ∧ isHeaderBytes rx.params.ck.run (zeros 48) = true ∧
      usable rx.params (unpackRecord (slice (zeros 48) 0 42)).toHeaderBody = false) ∧
    (dg1.length = rx.params.dsRx.toNat ∧ isHeaderBytes rx.params.ck.run dg1 = false) ∧
    inverseTransform collectingCoded.params (codecOf collectingCoded.hdr.toHeaderBody) dg1 = none ∧
    1 < (collecting 2 48).blocksRemaining.toNat ∧ ¬1 < (collecting 1 96).blocksRemaining.toNat := by
  refine ⟨.inr (.inr (.inl rfl)), ?_⟩
  decide +kernel

theorem witness_StepKeepsInvariant :
    (collecting 2 48).inv = true ∧
    ∃ t, step (withPort (collecting 2 48) (deliveries [dg2])) = .next t ∧ decide (t.rsm = .collecting) = true :=
  ⟨by decide +kernel, exists_next _ (by decide +kernel)⟩

theorem witness_NothingIsFatal :
    (collecting 1 96).inv = true ∧ Instr.wellFormed (collecting 1 96).params.ck.run (.pr dg3) = true := by
  decide +kernel

theorem witness_ResetInputAwaitsHeader : (withPort (collecting 2 48) [.rst]).port = .rst :: [] := rfl

/-- A command, and a datagram that is the remainder block by the count. -/
theorem witness_StepRunsDecodedInstruction :
    decode rx.params.ck.run rx.params.dsRx (remainderDue rx) (.command [0x06#8]) = .ok .reserved6 ∧
    decode (collecting 1 96).params.ck.run (collecting 1 96).params.dsRx (remainderDue (collecting 1 96))
      (.datagram dg3) = .ok (.pr dg3) := by
  decide +kernel

theorem witness_StepIdlesOrRefusesWithoutTransaction :
    rx.port = [] ∧
    decode rx.params.ck.run rx.params.dsRx (remainderDue rx) (.command [0x08#8]) = .error .selectTooWide := by
  decide +kernel

/-- A command, a record, and each of the three datagrams. -/
theorem witness_DecodeInvertsEncode :
    Instr.wellFormed ckRef (.emit p1Request) = true ∧ Instr.wellFormed ckRef (.h p1Header) = true ∧
    (Instr.wellFormed ckRef (.hd dg0) = true ∧ dg0.length = (48 : U16).toNat) ∧
    (Instr.wellFormed ckRef (.pd dg1) = true ∧ dg1.length = (48 : U16).toNat) ∧
    (Instr.wellFormed ckRef (.pr dg3) = true ∧ dg3.length = (48 : U16).toNat) := by
  decide +kernel

/-- Two states of the same parameters, one of them collecting. -/
theorem witness_StatelessInstructionsFrame :
    stateless (.emit p1Request) = true ∧ (collecting 2 48).params = rx.params := ⟨rfl, rfl⟩

/-- A step that stores, and one that adopts a header. -/
theorem witness_ReceiveFrame :
    (receives dg2 (.pd dg2) ∧ ∃ t, exec (.pd dg2) (collecting 2 48) = .next t ∧
      decide (t.out.disp = some .payStored) = true) ∧
    (receives dg0 (.hd dg0) ∧ ∃ t, exec (.hd dg0) (collecting 2 48) = .next t ∧
      decide (t.out.disp = some .hdrAdopted) = true) :=
  ⟨⟨.inr (.inr (.inl rfl)), exists_next _ (by decide +kernel)⟩, .inr (.inl rfl), exists_next _ (by decide +kernel)⟩

theorem witness_WireDeliveryIsAccept : (zeros 65535).length ≤ 65535 := by rw [zeros_length]

/-- A header datagram and a payload datagram of one size; then a payload datagram where no frame is collected, where the last
full block is due, and where the remainder block is. -/
theorem witness_WireDecodingIsTheComparison :
    (dg0.length = (48 : U16).toNat ∧ ckRef (slice dg0 0 34) = le 64 (slice dg0 34 42)) ∧
    (dg1.length = (48 : U16).toNat ∧ ckRef (slice dg1 0 34) ≠ le 64 (slice dg1 34 42)) ∧
    (dg3.length = rx.params.dsRx.toNat ∧ rx.params.ck.run (slice dg3 0 34) ≠ le 64 (slice dg3 34 42) ∧
      rx.rsm ≠ .collecting) ∧
    ((collecting 2 48).rsm = .collecting ∧ ¬2 ≤ 3 - (collecting 2 48).blocksRemaining.toNat) ∧
    ((collecting 1 96).rsm = .collecting ∧ (collecting 1 96).hdr.completeBlockCount.toNat = 2 ∧
      (collecting 1 96).hdr.blockCount.toNat = 3 ∧ 2 ≤ 3 - (collecting 1 96).blocksRemaining.toNat) := by
  decide +kernel

/-- An undefined nibble, beside a defined one; and a frame in progress under the default parameters. -/
theorem witness_PayloadTransformIsChosenByNibble :
    ((2 : U4) ≠ 0 ∧ ¬∃ e, e ∈ collectingCoded.params.codecInv ∧ e.nibble = 2) ∧
    ((collecting 1 96).inv = true ∧ (collecting 1 96).rsm = .collecting ∧ (collecting 1 96).params.codecInv = []) := by
  decide +kernel

/-- A header datagram and a payload datagram. -/
theorem witness_DatagramIsHeaderOrPayload :
    (dg0.length = (48 : U16).toNat ∧ ckRef (slice dg0 0 34) = le 64 (slice dg0 34 42)) ∧
    (dg1.length = (48 : U16).toNat ∧ ckRef (slice dg1 0 34) ≠ le 64 (slice dg1 34 42)) := by
  decide +kernel

theorem witness_SendAndReceiveCommute :
    stateless (.emit p1Request) = true ∧ receives dg2 (.pd dg2) ∧
    ∃ t, exec (.pd dg2) (collecting 2 48) = .next t ∧ decide (t.out.disp = some .payStored) = true :=
  ⟨rfl, .inr (.inr (.inl rfl)), exists_next _ (by decide +kernel)⟩

/-- Two states that differ in every dead value, awaiting a header; and two that differ in BUF at `next_offset`. -/
theorem witness_DeadValuesAreUnobservable :
    (∃ s u : State, s ≠ u ∧ s.inv = true ∧ u.inv = true ∧ s.sameLive u ∧ s.rsm = .awaitingHeader) ∧
    (∃ s u : State, s ≠ u ∧ s.inv = true ∧ u.inv = true ∧ s.sameLive u ∧ s.rsm = .collecting) := by
  constructor
  · refine ⟨rx, { collecting 2 48 with rsm := .awaitingHeader }, by decide +kernel, by decide +kernel, by decide +kernel,
      ⟨rfl, rfl, rfl, rfl, fun h => ?_⟩, rfl⟩
    cases h
  · refine ⟨collecting 2 48, { collecting 2 48 with buf := Memory.write (collecting 2 48).buf 48 0x77 },
      by decide +kernel, by decide +kernel, by decide +kernel, ⟨rfl, rfl, rfl, rfl, fun _ => ⟨rfl, rfl, rfl, ?_⟩⟩, rfl⟩
    intro a ha
    rw [Memory.read_write_other]
    have : (collecting 2 48).nextOffset.toNat = 48 := rfl
    omega

/-- P1's datagrams, with one of a wrong size before the last. -/
theorem witness_FrameIsArrivalsInOrder :
    rx.inv = true ∧ takesHeaderPath rx.params dg0 = true ∧
    usable rx.params (unpackRecord (slice dg0 0 42)).toHeaderBody = true ∧
    (∀ x ∈ [dg1, dg2, zeros 47], takesHeaderPath rx.params x = false ∧ x.length ≤ 65535) ∧
    storable rx.params (codecOf (unpackRecord (slice dg0 0 42)).toHeaderBody) dg3 = true ∧
    ([dg1, dg2, zeros 47].filter (storable rx.params (codecOf (unpackRecord (slice dg0 0 42)).toHeaderBody))).length + 1 =
      (unpackRecord (slice dg0 0 42)).blockCount.toNat ∧
    (([dg1, dg2, zeros 47] ++ [dg3]).filter
      (storable rx.params (codecOf (unpackRecord (slice dg0 0 42)).toHeaderBody))).map
      (inverseTransform rx.params (codecOf (unpackRecord (slice dg0 0 42)).toHeaderBody)) =
      [dg1, dg2, dg3].map some := by
  decide +kernel

/-- No block yet, and all but the last. -/
theorem witness_BlocksAreStoredInArrivalOrder :
    rx.inv = true ∧ takesHeaderPath rx.params dg0 = true ∧
    usable rx.params (unpackRecord (slice dg0 0 42)).toHeaderBody = true ∧
    0 < (unpackRecord (slice dg0 0 42)).blockCount.toNat ∧
    (∀ x ∈ [dg1, zeros 47, dg2], takesHeaderPath rx.params x = false ∧ x.length ≤ 65535) ∧
    ([dg1, zeros 47, dg2].filter (storable rx.params (codecOf (unpackRecord (slice dg0 0 42)).toHeaderBody))).length + 1 =
      (unpackRecord (slice dg0 0 42)).blockCount.toNat ∧
    ([dg1, zeros 47, dg2].filter (storable rx.params (codecOf (unpackRecord (slice dg0 0 42)).toHeaderBody))).map
      (inverseTransform rx.params (codecOf (unpackRecord (slice dg0 0 42)).toHeaderBody)) = [dg1, dg2].map some := by
  decide +kernel

theorem witness_RoundTripWithoutLoss :
    (∃ u, exec (.emit p1Request) rx = .next u ∧
      decide (u.out.emitOk = some true ∧ ∀ d ∈ u.out.datagrams.tail, isHeaderBytes rx.params.ck.run d = false) = true) ∧
    rx.inv = true ∧ p1Request.samples.length = p1Request.sampleBytes ∧
    rx.params.dsRx = p1Request.datagramSize ∧ 1 ≤ p1Request.count.toNat ∧ p1Request.sampleBytes ≤ rx.params.bufBytes ∧
    codecInvDefined rx.params p1Request.codec = true ∧
    (∀ d ∈ emitPayload rx.params { p1Request with codec := 0 },
      inverseTransform rx.params p1Request.codec (forwardTransform rx.params p1Request.codec d) = some d) :=
  ⟨exists_next _ (by decide +kernel), by decide +kernel⟩

/-- The codec's condition of the round trip, for a codec that changes a block. -/
theorem witness_RoundTripWithoutLoss_codec :
    codecInvDefined reversing 1 = true ∧ emitRefused reversing { p1Request with codec := 1 } = false ∧
    ∀ d ∈ emitPayload reversing { { p1Request with codec := 1 } with codec := 0 },
      inverseTransform reversing 1 (forwardTransform reversing 1 d) = some d := by
  decide +kernel

/-- Program P2's shape: one block of the first frame arrives and one is dropped for its size; then comes a header that is
not usable, or P1's frame (whose conditions are witness_RoundTripWithoutLoss). -/
theorem witness_ResynchronisesAfterLoss :
    (rx.inv = true ∧ takesHeaderPath rx.params (p2Header ++ zeros 6) = true ∧
      usable rx.params (unpackRecord (slice (p2Header ++ zeros 6) 0 42)).toHeaderBody = true) ∧
    (∀ d ∈ [dg1, zeros 47], takesHeaderPath rx.params d = false ∧ d.length ≤ 65535) ∧
    ([dg1, zeros 47].filter
      (storable rx.params (codecOf (unpackRecord (slice (p2Header ++ zeros 6) 0 42)).toHeaderBody))).length <
      (unpackRecord (slice (p2Header ++ zeros 6) 0 42)).blockCount.toNat ∧
    takesHeaderPath rx.params (zeros 48) = true := by
  decide +kernel

/-- The first block, and the last. -/
theorem witness_DueBlockStaysInsideFrame :
    ((collecting 3 0).inv = true ∧ (collecting 3 0).rsm = .collecting) ∧
    ((collecting 1 96).inv = true ∧ (collecting 1 96).rsm = .collecting ∧ (collecting 1 96).blocksRemaining.toNat = 1) := by
  decide +kernel

theorem witness_UsableHeaderTilesItsFrame :
    rx.params.legal = true ∧ usable rx.params (unpackRecord p1Header).toHeaderBody = true ∧
    0 < (unpackRecord p1Header).blockCount.toNat ∧ 2 < (unpackRecord p1Header).blockCount.toNat := by
  decide +kernel

theorem witness_ParametersNeverChange :
    ∃ t, step (withPort (collecting 2 48) (deliveries [dg2])) = .next t ∧ decide (t.rsm = .collecting) = true :=
  exists_next _ (by decide +kernel)

theorem witness_HeaderRegisterIsWrittenByHeaderPathOnly :
    ∃ t, step (withPort rx (deliveries [dg0])) = .next t ∧ decide (t.hdr ≠ rx.hdr) = true :=
  exists_next _ (by decide +kernel)

/-- Into COLLECTING by a usable header, and out of it by a completed frame. -/
theorem witness_OnlyTheseEventsChangeRsmState :
    (∃ t, step (withPort rx (deliveries [dg0])) = .next t ∧ decide (t.rsm = .collecting) = true) ∧
    (∃ t, step (withPort (collecting 1 96) (deliveries [dg3])) = .next t ∧ decide (t.rsm = .awaitingHeader) = true) :=
  ⟨exists_next _ (by decide +kernel), exists_next _ (by decide +kernel)⟩

theorem witness_FrameIsReturnedOnlyByItsLastBlock :
    ∃ t, exec (.pr dg3) (collecting 1 96) = .next t ∧ decide (t.out.disp = some .frameDone) = true :=
  exists_next _ (by decide +kernel)

/-- A header with its padding changed, and a remainder block with bytes changed past the 42 of the comparison. -/
theorem witness_PaddingIsNeverRead :
    (dg0.length = (p1Header ++ List.replicate 6 0xff).length ∧
      slice dg0 0 42 = slice (p1Header ++ List.replicate 6 0xff) 0 42 ∧ isHeaderBytes rx.params.ck.run dg0 = true) ∧
    (dg3.length = (slice dg3 0 42 ++ List.replicate 6 0xff).length ∧
      slice dg3 0 42 = slice (slice dg3 0 42 ++ List.replicate 6 0xff) 0 42 ∧
      codecOf (collecting 1 96).hdr.toHeaderBody = 0 ∧
      slice dg3 0 (blockBytes (collecting 1 96)) =
        slice (slice dg3 0 42 ++ List.replicate 6 0xff) 0 (blockBytes (collecting 1 96))) := by
  decide +kernel

end Sys2Proof.Tests
end

section
/-!
PROOFS. Dead values cannot be observed (R23, R24, R39): `State.sameLive` is a bisimulation on the states that meet the
invariant. Each state update keeps the relation, hence each path of a datagram, each instruction and each step does.
-/
namespace Sys2Proof.Machine

/-- Both answer a next state, and these differ in dead values alone (their outputs are equal). -/
def sameLiveNext (o o' : Host.Outcome State Fault Refusal) : Prop :=
  ∃ t v, o = .next t ∧ o' = .next v ∧ t.sameLive v

theorem sameLiveNext_next {t v : State} (h : t.sameLive v) : sameLiveNext (.next t) (.next v) := ⟨t, v, rfl, rfl, h⟩

/-- Writing the same bytes at the same place extends the part on which two memories agree by those bytes. -/
theorem Memory.read_writeBytes_congr {m m' : Memory} (hm : Memory.wf m = true) (hm' : Memory.wf m' = true)
    {a : Nat} (vs : Bytes) (h : ∀ b, b < a → Memory.read m b = Memory.read m' b) {b : Nat} (hb : b < a + vs.length) :
    Memory.read (Memory.writeBytes m a vs) b = Memory.read (Memory.writeBytes m' a vs) b := by
  rcases Nat.lt_or_ge b a with hlt | hge
  · rw [Memory.read_writeBytes_outside m a vs (.inl hlt), Memory.read_writeBytes_outside m' a vs (.inl hlt), h b hlt]
  · obtain ⟨k, rfl⟩ := Nat.exists_eq_add_of_le hge
    have hk : k < vs.length := by omega
    rw [Memory.read_writeBytes_inside hm a vs hk, Memory.read_writeBytes_inside hm' a vs hk]

section
variable {s u : State}

/-! What states that differ in dead values alone compute alike. -/

theorem blockIndex_sameLive (h : s.sameLive u) (hr : s.rsm = .collecting) : blockIndex s = blockIndex u := by
  obtain ⟨-, -, -, -, hlive⟩ := h
  obtain ⟨hhdr, hblocks, -⟩ := hlive hr
  rw [blockIndex, blockIndex, hhdr, hblocks]

theorem blockBytes_sameLive (h : s.sameLive u) (hr : s.rsm = .collecting) : blockBytes s = blockBytes u := by
  have hidx := blockIndex_sameLive h hr
  obtain ⟨-, hparams, -, -, hlive⟩ := h
  obtain ⟨hhdr, -⟩ := hlive hr
  rw [blockBytes, blockBytes, hidx, hparams, hhdr]

/-- The reading of a payload datagram as PD or PR counts blocks only while collecting (R48). -/
theorem remainderDue_sameLive (h : s.sameLive u) : remainderDue s = remainderDue u := by
  have ⟨hrsm, _⟩ := h
  cases hr : s.rsm with
  | awaitingHeader => simp [remainderDue, ← hrsm, hr]
  | collecting =>
    have hidx := blockIndex_sameLive h hr
    obtain ⟨-, -, -, -, hlive⟩ := h
    obtain ⟨hhdr, -⟩ := hlive hr
    rw [remainderDue, remainderDue, hidx, hhdr, hrsm]

theorem decode_sameLive (h : s.sameLive u) (tx : Transaction) : s.decode tx = u.decode tx := by
  have hdue := remainderDue_sameLive h
  obtain ⟨-, hparams, -⟩ := h
  rw [State.decode, State.decode, hdue, hparams]

/-- A frame that lies below `next_offset` is live data (R90). -/
theorem completedFrame_sameLive (h : s.sameLive u) (hr : s.rsm = .collecting)
    (hf : frameBytes s.hdr.toHeaderBody ≤ s.nextOffset.toNat) : completedFrame s = completedFrame u := by
  obtain ⟨-, -, -, -, hlive⟩ := h
  obtain ⟨hhdr, -, -, hbuf⟩ := hlive hr
  have hdata := Memory.readBytes_congr (a := 0) (n := frameBytes s.hdr.toHeaderBody)
    fun b _ hb => hbuf b (by omega)
  rw [completedFrame, completedFrame, ← hhdr, hdata]

/-! Which state updates keep the relation. -/

/-- Awaiting a header, only `rsm_state`, the parameters, the port and the outputs are live (R23). -/
theorem sameLive_of_awaitingHeader (hs : s.rsm = .awaitingHeader) (hu : u.rsm = .awaitingHeader)
    (hparams : s.params = u.params) (hport : s.port = u.port) (hout : s.out = u.out) : s.sameLive u :=
  ⟨hs.trans hu.symm, hparams, hport, hout, fun hc => by simp [hs] at hc⟩

theorem sameLive_setOut (h : s.sameLive u) (o : Outputs) : (setOut o s).sameLive (setOut o u) := by
  obtain ⟨hrsm, hparams, hport, -, hlive⟩ := h
  exact ⟨hrsm, hparams, hport, rfl, hlive⟩

theorem sameLive_setPort (h : s.sameLive u) (es : List PortEvent) :
    State.sameLive { s with port := es } { u with port := es } := by
  obtain ⟨hrsm, hparams, -, hout, hlive⟩ := h
  exact ⟨hrsm, hparams, rfl, hout, hlive⟩

theorem sameLive_applyReset (h : s.sameLive u) : (applyReset s).sameLive (applyReset u) := by
  obtain ⟨-, hparams, hport, -, -⟩ := h
  exact sameLive_of_awaitingHeader rfl rfl hparams hport rfl

theorem sameLive_parkHeader (h : s.sameLive u) (hd : Header) : (parkHeader hd s).sameLive (parkHeader hd u) := by
  obtain ⟨-, hparams, hport, hout, -⟩ := h
  exact sameLive_of_awaitingHeader rfl rfl hparams hport hout

theorem sameLive_releaseFrame (h : s.sameLive u) : (releaseFrame s).sameLive (releaseFrame u) := by
  obtain ⟨-, hparams, hport, hout, -⟩ := h
  exact sameLive_of_awaitingHeader rfl rfl hparams hport hout

/-- A header defines all the live values anew: BUF counts from `next_offset` = 0, so no byte of it does (R83). -/
theorem sameLive_adoptHeader (h : s.sameLive u) (hd : Header) : (adoptHeader hd s).sameLive (adoptHeader hd u) := by
  obtain ⟨-, hparams, hport, hout, -⟩ := h
  exact ⟨rfl, hparams, hport, hout, fun _ => ⟨rfl, rfl, rfl, fun a ha => absurd ha (Nat.not_lt_zero a)⟩⟩

/-- Storing the same block makes the bytes it covers live, and they are the same (R89). -/
theorem sameLive_storeBlock (hs : Memory.wf s.buf = true) (hu : Memory.wf u.buf = true) (h : s.sameLive u)
    {blk : Bytes} {n : Nat} (hn : n ≤ blk.length) : (storeBlock blk n s).sameLive (storeBlock blk n u) := by
  obtain ⟨hrsm, hparams, hport, hout, hlive⟩ := h
  refine ⟨hrsm, hparams, hport, hout, fun hr => ?_⟩
  obtain ⟨hhdr, hblocks, hoffset, hbuf⟩ := hlive hr
  refine ⟨hhdr, congrArg (· - 1) hblocks, congrArg (· + BitVec.ofNat 37 n) hoffset, fun a ha => ?_⟩
  have hlen : (slice blk 0 n).length = n := by rw [slice_length]; omega
  have hnew : a < s.nextOffset.toNat + (slice blk 0 n).length := by
    rw [storeBlock_nextOffset, BitVec.toNat_add, BitVec.toNat_ofNat] at ha
    omega
  rw [storeBlock_buf, storeBlock_buf, ← hoffset]
  exact Memory.read_writeBytes_congr hs hu _ hbuf hnew

/-- After the last block is stored, `next_offset` is the frame's end (R94 (d)). -/
theorem storeBlock_nextOffset_of_last (hf : s.frameOk = true) (hlast : s.blocksRemaining.toNat = 1) (blk : Bytes) :
    (storeBlock blk (blockBytes s) s).nextOffset.toNat = frameBytes s.hdr.toHeaderBody := by
  obtain ⟨-, -, -, hend, -⟩ := frameOk_due hf
  have hsum := hend.2 hlast
  have h37 := frameBytes_lt s.hdr.toHeaderBody
  rw [storeBlock_nextOffset, BitVec.toNat_add, BitVec.toNat_ofNat]
  omega

/-! The paths of a datagram, the instructions, and the step. -/

theorem headerPath_sameLive (h : s.sameLive u) (dg : Bytes) : sameLiveNext (headerPath dg s) (headerPath dg u) := by
  have ⟨hrsm, hparams, _⟩ := h
  simp only [headerPath, ← hrsm, ← hparams]
  split
  · exact sameLiveNext_next (sameLive_setOut (sameLive_adoptHeader h _) _)
  · exact sameLiveNext_next (sameLive_setOut (sameLive_parkHeader h _) _)

theorem collectBlock_sameLive (hs : s.inv = true) (hu : u.inv = true) (h : s.sameLive u) (hr : s.rsm = .collecting)
    {dg : Bytes} (hd : dg.length = s.params.dsRx.toNat) : sameLiveNext (collectBlock dg s) (collectBlock dg u) := by
  obtain ⟨-, ⟨hswf, -⟩, hsf⟩ := (State.inv_iff s).1 hs
  obtain ⟨-, ⟨huwf, -⟩, huf⟩ := (State.inv_iff u).1 hu
  have hn := blockBytes_sameLive h hr
  have ⟨hrsm, hparams, _, _, hlive⟩ := h
  obtain ⟨hhdr, hblocks, -⟩ := hlive hr
  have hf := hsf hr
  rw [collectBlock_of_frameOk hf hd, collectBlock_of_frameOk (huf (hrsm ▸ hr)) (hparams ▸ hd),
    ← hparams, ← hhdr, ← hblocks, ← hn]
  cases hinv : inverseTransform s.params (codecOf s.hdr.toHeaderBody) dg with
  | none => exact sameLiveNext_next (sameLive_setOut h _)
  | some blk =>
    obtain ⟨husable, -⟩ := (State.frameOk_iff s).1 hf
    have hfits : blockBytes s ≤ blk.length := by
      rw [inverseTransform_length hinv, hd]
      exact (blockLength_bounds husable (frameOk_due hf).1).2
    have hstore := sameLive_storeBlock hswf huwf h hfits
    dsimp only
    split
    · next hlast =>
      have hframe := completedFrame_sameLive hstore hr (storeBlock_nextOffset_of_last hf hlast blk).ge
      rw [hframe]
      exact sameLiveNext_next (sameLive_setOut (sameLive_releaseFrame hstore) _)
    · exact sameLiveNext_next (sameLive_setOut hstore _)

theorem payloadPath_sameLive (hs : s.inv = true) (hu : u.inv = true) (h : s.sameLive u) {dg : Bytes}
    (hd : dg.length = s.params.dsRx.toNat) : sameLiveNext (payloadPath dg s) (payloadPath dg u) := by
  have ⟨hrsm, _⟩ := h
  simp only [payloadPath, ← hrsm]
  split
  · exact sameLiveNext_next (sameLive_setOut h _)
  · next hr => exact collectBlock_sameLive hs hu h hr hd

theorem acceptDatagram_sameLive (hs : s.inv = true) (hu : u.inv = true) (h : s.sameLive u) (dg : Bytes) :
    sameLiveNext (acceptDatagram dg.length dg s) (acceptDatagram dg.length dg u) := by
  have ⟨_, hparams, _⟩ := h
  simp only [acceptDatagram, ← hparams]
  split
  · exact sameLiveNext_next (sameLive_setOut h _)
  next hlen =>
  split
  · exact headerPath_sameLive h dg
  · exact payloadPath_sameLive hs hu h (not_not.1 hlen)

/-- An instruction without state answers from the parameters alone; the others accept their datagram. -/
theorem exec_sameLive (hs : s.inv = true) (hu : u.inv = true) (h : s.sameLive u) {i : Instr}
    (hi : stateless i = true ∨ ∃ d, receives d i) : sameLiveNext (exec i s) (exec i u) := by
  rcases hi with hi | ⟨d, hi⟩
  · obtain ⟨f, hf⟩ := exec_of_stateless hi
    have ⟨_, hparams, _⟩ := h
    rw [hf, hf, ← hparams]
    exact sameLiveNext_next (sameLive_setOut h _)
  · rw [exec_of_receives hi, exec_of_receives hi]
    exact acceptDatagram_sameLive hs hu h d

/-- A transaction is refused for the same reason in both states, or answers in both. -/
theorem runTransaction_sameLive (hs : s.inv = true) (hu : u.inv = true) (h : s.sameLive u) (tx : Transaction) :
    sameLiveNext (runTransaction tx s) (runTransaction tx u) ∨
      ∃ r, runTransaction tx s = .refused r ∧ runTransaction tx u = .refused r := by
  simp only [runTransaction, ← decode_sameLive h tx]
  split
  · next hi => exact .inl (exec_sameLive hs hu h (decode_stateless_or_receives hi))
  · exact .inr ⟨_, rfl, rfl⟩

/-- The one-step bisimulation: what is presented is refused for the same reason in both states, or both answer. -/
theorem step_sameLive (hs : s.inv = true) (hu : u.inv = true) (h : s.sameLive u) :
    sameLiveNext (step s) (step u) ∨ ∃ r, step s = .refused r ∧ step u = .refused r := by
  have ⟨_, _, hport, _⟩ := h
  simp only [step, ← hport]
  split
  · exact .inl (sameLiveNext_next h)
  next e es _ =>
  have hpop := sameLive_setPort h es
  cases e with
  | rst => exact .inl (sameLiveNext_next (sameLive_applyReset hpop))
  | run tx =>
    have hpops : State.inv { s with port := es } = true := hs
    have hpopu : State.inv { u with port := es } = true := hu
    exact runTransaction_sameLive hpops hpopu hpop tx

end

/-- Settles O38: dead values cannot be observed, by the one-step bisimulation `step_sameLive`. -/
theorem deadValuesAreUnobservable : Obligations.DeadValuesAreUnobservable := by
  intro s u hs hu h
  rcases step_sameLive hs hu h with ⟨t, v, hst, huv, htv⟩ | ⟨r, hsr, hur⟩
  · rw [hst, huv]
    refine ⟨fun t' ht => ⟨v, rfl, ?_⟩, fun _ hr => nomatch hr⟩
    obtain rfl := next_inj ht
    exact htv
  · rw [hsr, hur]
    exact ⟨fun _ ht => (nomatch ht), fun _ hr => hr⟩

end Sys2Proof.Machine
end

section
/-!
PROOFS. A completed frame is exactly the blocks stored since its header, in arrival order (R39, R94 (e)). The invariant
`CollectingFrame` says which blocks a collection holds: a usable header starts it with none, a storable datagram appends its
block, any other datagram that is no header keeps it, and the last block returns it whole.
-/
namespace Sys2Proof.Machine

/-! The block a datagram brings to a collection. -/

/-- The block a datagram brings to a collection whose header has the codec nibble `c`, if it takes the payload path and has
an inverse transform (R79, R87, R88). -/
def arrivingBlock (p : Params) (c : U4) (d : Bytes) : Option Bytes :=
  if takesPayloadPath p d = true then inverseTransform p c d else none

section
variable {p : Params} {c : U4} {d blk : Bytes}

theorem takesHeaderPath_iff :
    takesHeaderPath p d = true ↔ d.length = p.dsRx.toNat ∧ isHeaderBytes p.ck.run d = true := by
  simp [takesHeaderPath]

theorem takesPayloadPath_iff :
    takesPayloadPath p d = true ↔ d.length = p.dsRx.toNat ∧ isHeaderBytes p.ck.run d = false := by
  simp [takesPayloadPath]

theorem arrivingBlock_eq_some_iff :
    arrivingBlock p c d = some blk ↔ takesPayloadPath p d = true ∧ inverseTransform p c d = some blk := by
  simp [arrivingBlock]

/-- The datagrams that bring a block are those the spec's `storable` names. -/
theorem isSome_arrivingBlock : (arrivingBlock p c d).isSome = storable p c d := by
  cases hpay : takesPayloadPath p d <;> simp [arrivingBlock, storable, hpay]

theorem length_of_arrivingBlock (h : arrivingBlock p c d = some blk) : d.length = p.dsRx.toNat := by
  obtain ⟨hpay, -⟩ := arrivingBlock_eq_some_iff.1 h
  exact (takesPayloadPath_iff.1 hpay).1

/-- The images of the storable datagrams are the blocks that arrive. -/
theorem map_inverseTransform_filter_storable (p : Params) (c : U4) (ds : List Bytes) :
    (ds.filter (storable p c)).map (inverseTransform p c) = (ds.filterMap (arrivingBlock p c)).map some := by
  induction ds with
  | nil => rfl
  | cons d ds ih =>
    have hs := isSome_arrivingBlock (p := p) (c := c) (d := d)
    cases ha : arrivingBlock p c d with
    | none =>
      rw [ha] at hs
      rw [List.filter_cons_of_neg (by simp [← hs]), List.filterMap_cons_none ha, ih]
    | some blk =>
      rw [ha] at hs
      obtain ⟨-, hinv⟩ := arrivingBlock_eq_some_iff.1 ha
      rw [List.filter_cons_of_pos hs.symm, List.filterMap_cons_some ha, List.map_cons, List.map_cons, hinv, ih]

end

theorem storedBytes_concat (p : Params) (h : HeaderBody) (idx : Nat) (blks : List Bytes) (blk : Bytes) :
    storedBytes p h idx (blks ++ [blk]) =
      storedBytes p h idx blks ++ slice blk 0 (blockLength p h (idx + blks.length)) := by
  induction blks generalizing idx with
  | nil => simp [storedBytes]
  | cons b blks ih => simp [storedBytes, ih, Nat.add_assoc, Nat.add_comm 1]

/-- Writing at `a` extends the bytes of BUF below `a` by those written, and leaves them alone. -/
theorem Memory.readBytes_writeBytes_append {m : Memory} (hm : Memory.wf m = true) (a : Nat) (vs : Bytes) :
    Memory.readBytes (Memory.writeBytes m a vs) 0 (a + vs.length) = Memory.readBytes m 0 a ++ vs := by
  have hbelow : Memory.readBytes (Memory.writeBytes m a vs) 0 a = Memory.readBytes m 0 a :=
    Memory.readBytes_congr fun b _ hb => Memory.read_writeBytes_outside m a vs (.inl (by omega))
  rw [Memory.readBytes_append, hbelow, Nat.zero_add, Memory.readBytes_writeBytes hm]

/-! Which blocks a collection holds. -/

/-- A frame of `h` is being collected, and `blks` are the blocks stored since its header, in order (R94). -/
structure CollectingFrame (p : Params) (h : Header) (blks : List Bytes) (s : State) : Prop where
  collecting : s.rsm = .collecting
  params     : s.params = p
  hdr        : s.hdr = h
  frameOk    : s.frameOk = true
  bufWf      : Memory.wf s.buf = true
  stored     : blockIndex s = blks.length
  data       : Memory.readBytes s.buf 0 s.nextOffset.toNat = storedBytes p h.toHeaderBody 0 blks

section
variable {p : Params} {h : Header} {blks : List Bytes} {s : State}

/-- The outputs are no part of a collection. -/
theorem collectingFrame_setOut (hc : CollectingFrame p h blks s) (o : Outputs) :
    CollectingFrame p h blks (setOut o s) := by
  obtain ⟨hr, hp, hh, hf, hw, hn, hd⟩ := hc
  exact ⟨hr, hp, hh, hf, hw, hn, hd⟩

/-- Nor are the inputs to come. -/
theorem collectingFrame_setPort (hc : CollectingFrame p h blks s) (es : List PortEvent) :
    CollectingFrame p h blks { s with port := es } := by
  obtain ⟨hr, hp, hh, hf, hw, hn, hd⟩ := hc
  exact ⟨hr, hp, hh, hf, hw, hn, hd⟩

/-- A usable header starts a collection that holds no block (R83). -/
theorem collectingFrame_adoptHeader (hw : Memory.wf s.buf = true) (hu : usable s.params h.toHeaderBody = true) :
    CollectingFrame s.params h [] (adoptHeader h s) :=
  ⟨rfl, rfl, rfl, frameOk_adoptHeader hu, hw, by simp [blockIndex], rfl⟩

/-- The last block is due where one less than the header's count is stored. -/
theorem CollectingFrame.last_iff (hc : CollectingFrame p h blks s) :
    s.blocksRemaining.toNat = 1 ↔ blks.length + 1 = h.blockCount.toNat := by
  obtain ⟨-, hlast, -⟩ := frameOk_due hc.frameOk
  rw [hlast, hc.stored, hc.hdr]

/-- The due block's bytes go to BUF behind the blocks already there (R89). -/
theorem CollectingFrame.readBytes_storeBlock (hc : CollectingFrame p h blks s) {blk : Bytes}
    (hblk : blk.length = p.dsRx.toNat) :
    Memory.readBytes (storeBlock blk (blockBytes s) s).buf 0 (s.nextOffset.toNat + blockBytes s) =
      storedBytes p h.toHeaderBody 0 (blks ++ [blk]) := by
  obtain ⟨-, rfl, rfl, hf, hw, hn, hd⟩ := hc
  obtain ⟨husable, -⟩ := (State.frameOk_iff s).1 hf
  obtain ⟨-, hfits⟩ := blockLength_bounds husable (frameOk_due hf).1
  have hlen : (slice blk 0 (blockBytes s)).length = blockBytes s := by
    rw [slice_length, hblk]
    simp only [blockBytes]
    omega
  have happend := Memory.readBytes_writeBytes_append hw s.nextOffset.toNat (slice blk 0 (blockBytes s))
  rw [hlen] at happend
  rw [storeBlock_buf, happend, hd, storedBytes_concat, Nat.zero_add, ← hn, blockBytes]

/-- Storing a block that is not the last appends it to the collection (R89). -/
theorem collectingFrame_storeBlock (hc : CollectingFrame p h blks s) {blk : Bytes} (hblk : blk.length = p.dsRx.toNat)
    (hmore : s.blocksRemaining.toNat ≠ 1) :
    CollectingFrame p h (blks ++ [blk]) (storeBlock blk (blockBytes s) s) := by
  obtain ⟨-, ⟨hpos, hle⟩, -⟩ := (State.frameOk_iff s).1 hc.frameOk
  obtain ⟨-, -, hinside, -⟩ := frameOk_due hc.frameOk
  have h37 := frameBytes_lt s.hdr.toHeaderBody
  have hoffset : (storeBlock blk (blockBytes s) s).nextOffset.toNat = s.nextOffset.toNat + blockBytes s := by
    rw [storeBlock_nextOffset, BitVec.toNat_add, BitVec.toNat_ofNat]
    omega
  refine ⟨hc.collecting, hc.params, hc.hdr, frameOk_storeBlock hc.frameOk hmore blk,
    Memory.wf_writeBytes hc.bufWf _ _, ?_, ?_⟩
  · rw [List.length_append, ← hc.stored, List.length_singleton]
    simp only [blockIndex, storeBlock_hdr, storeBlock_blocksRemaining, u16_pred_toNat hpos]
    omega
  · rw [hoffset, hc.readBytes_storeBlock hblk]

/-- After the last block BUF holds, from 0, all the blocks and nothing else of the frame (R90, R94 (d)). -/
theorem CollectingFrame.completedFrame_storeBlock (hc : CollectingFrame p h blks s) {blk : Bytes}
    (hblk : blk.length = p.dsRx.toNat) (hlast : s.blocksRemaining.toNat = 1) :
    completedFrame (storeBlock blk (blockBytes s) s) =
      { hdr := h, data := storedBytes p h.toHeaderBody 0 (blks ++ [blk]) } := by
  obtain ⟨-, -, -, hend, -⟩ := frameOk_due hc.frameOk
  rw [completedFrame, storeBlock_hdr, ← hend.2 hlast, hc.readBytes_storeBlock hblk, hc.hdr]

/-- The blocks of a whole frame have its size (R39). -/
theorem CollectingFrame.length_storedBytes (hc : CollectingFrame p h blks s) {blk : Bytes}
    (hblk : blk.length = p.dsRx.toNat) (hlast : blks.length + 1 = h.blockCount.toNat) :
    (storedBytes p h.toHeaderBody 0 (blks ++ [blk])).length = frameBytes h.toHeaderBody := by
  obtain ⟨-, -, -, hend, -⟩ := frameOk_due hc.frameOk
  rw [← hc.readBytes_storeBlock hblk, Memory.readBytes_length, hend.2 (hc.last_iff.2 hlast), hc.hdr]

end

/-! What a datagram does to a collection. -/

section
variable {p : Params} {h : Header} {blks : List Bytes} {s : State} {d blk : Bytes} {es : List PortEvent}

/-- A usable header is adopted whatever `rsm_state` is, and the abandonment of a frame in progress reported (R82, R83). -/
theorem acceptDatagram_of_usableHeader (hhd : takesHeaderPath s.params d = true)
    (hu : usable s.params (unpackRecord (slice d 0 42)).toHeaderBody = true) :
    acceptDatagram d.length d s =
      .next (setOut (acceptOutputs .hdrAdopted (decide (s.rsm = .collecting)) none)
        (adoptHeader (unpackRecord (slice d 0 42)) s)) := by
  obtain ⟨hlen, hcmp⟩ := takesHeaderPath_iff.1 hhd
  simp [acceptDatagram, hlen, hcmp, headerPath, hu, raiseDisp, finish]

theorem acceptDatagram_of_wrongSize (hlen : d.length ≠ s.params.dsRx.toNat) :
    acceptDatagram d.length d s = .next (setOut (acceptOutputs .dropSize false none) s) := by
  rw [acceptDatagram, if_pos hlen, raiseDisp, finish]

theorem acceptDatagram_of_takesPayloadPath (hpay : takesPayloadPath s.params d = true) (hr : s.rsm = .collecting) :
    acceptDatagram d.length d s = collectBlock d s := by
  obtain ⟨hlen, hcmp⟩ := takesPayloadPath_iff.1 hpay
  simp [acceptDatagram, hlen, hcmp, payloadPath, hr]

/-- A datagram that is no header and brings no block changes the outputs alone, and returns no frame (R80, R88). -/
theorem CollectingFrame.acceptDatagram_of_none (hc : CollectingFrame p h blks s) (hhd : takesHeaderPath p d = false)
    (ha : arrivingBlock p (codecOf h.toHeaderBody) d = none) :
    ∃ o, acceptDatagram d.length d s = .next (setOut o s) ∧ o.frame = none := by
  obtain ⟨hr, rfl, rfl, hf, -⟩ := hc
  by_cases hlen : d.length = s.params.dsRx.toNat
  · have hpay : takesPayloadPath s.params d = true := by
      simpa [takesPayloadPath, takesHeaderPath, hlen] using hhd
    rw [arrivingBlock, if_pos hpay] at ha
    rw [acceptDatagram_of_takesPayloadPath hpay hr, collectBlock_of_frameOk hf hlen, ha]
    exact ⟨_, rfl, rfl⟩
  · exact ⟨_, acceptDatagram_of_wrongSize hlen, rfl⟩

/-- A datagram that brings a block has it stored, and completes the frame if it is the last (R89, R90). -/
theorem CollectingFrame.acceptDatagram_of_some (hc : CollectingFrame p h blks s)
    (ha : arrivingBlock p (codecOf h.toHeaderBody) d = some blk) :
    acceptDatagram d.length d s =
      if s.blocksRemaining.toNat = 1 then
        .next (setOut
          (acceptOutputs .frameDone false (some (completedFrame (storeBlock blk (blockBytes s) s))))
          (releaseFrame (storeBlock blk (blockBytes s) s)))
      else .next (setOut (acceptOutputs .payStored false none) (storeBlock blk (blockBytes s) s)) := by
  obtain ⟨hr, rfl, rfl, hf, -⟩ := hc
  obtain ⟨hpay, hinv⟩ := arrivingBlock_eq_some_iff.1 ha
  rw [acceptDatagram_of_takesPayloadPath hpay hr, collectBlock_of_frameOk hf (length_of_arrivingBlock ha), hinv]

theorem block_length_of_arrivingBlock {c : U4} (ha : arrivingBlock p c d = some blk) : blk.length = p.dsRx.toNat := by
  obtain ⟨-, hinv⟩ := arrivingBlock_eq_some_iff.1 ha
  rw [inverseTransform_length hinv, length_of_arrivingBlock ha]

/-- A datagram of the receiver's size is short enough for the receive interface (R51). -/
theorem step_datagram_of_size (hp : s.port = .run (.datagram d) :: es) (hlen : d.length = s.params.dsRx.toNat) :
    step s = acceptDatagram d.length d { s with port := es } := by
  have hds := s.params.dsRx.isLt
  exact step_datagram hp (by omega)

/-- The step of a dropped datagram: the collection holds what it held. -/
theorem CollectingFrame.step_of_none (hc : CollectingFrame p h blks s) (hp : s.port = .run (.datagram d) :: es)
    (hl : d.length ≤ 65535) (hhd : takesHeaderPath p d = false)
    (ha : arrivingBlock p (codecOf h.toHeaderBody) d = none) :
    ∃ t, step s = .next t ∧ t.out.frame = none ∧ t.port = es ∧ CollectingFrame p h blks t := by
  obtain ⟨o, hnext, ho⟩ := (collectingFrame_setPort hc es).acceptDatagram_of_none hhd ha
  exact ⟨_, (step_datagram hp hl).trans hnext, ho, rfl, collectingFrame_setOut (collectingFrame_setPort hc es) o⟩

/-- The step of a block that is not the last: the collection holds one block more. -/
theorem CollectingFrame.step_of_some (hc : CollectingFrame p h blks s) (hp : s.port = .run (.datagram d) :: es)
    (ha : arrivingBlock p (codecOf h.toHeaderBody) d = some blk) (hmore : blks.length + 1 < h.blockCount.toNat) :
    ∃ t, step s = .next t ∧ t.out = acceptOutputs .payStored false none ∧ t.port = es ∧
      CollectingFrame p h (blks ++ [blk]) t := by
  have hc' := collectingFrame_setPort hc es
  have hlast : ¬s.blocksRemaining.toNat = 1 := mt hc.last_iff.1 (by omega)
  have hlen : d.length = s.params.dsRx.toNat := by rw [length_of_arrivingBlock ha, hc.params]
  rw [step_datagram_of_size hp hlen, hc'.acceptDatagram_of_some ha, if_neg hlast]
  have hstored := collectingFrame_storeBlock hc' (block_length_of_arrivingBlock ha) hlast
  exact ⟨_, rfl, rfl, rfl, collectingFrame_setOut hstored _⟩

/-- The step of the last block: the frame is the blocks held and this one. -/
theorem CollectingFrame.step_of_last (hc : CollectingFrame p h blks s) (hp : s.port = .run (.datagram d) :: es)
    (ha : arrivingBlock p (codecOf h.toHeaderBody) d = some blk) (hlast : blks.length + 1 = h.blockCount.toNat) :
    ∃ t, step s = .next t ∧
      t.out = acceptOutputs .frameDone false
        (some { hdr := h, data := storedBytes p h.toHeaderBody 0 (blks ++ [blk]) }) ∧
      t.rsm = .awaitingHeader ∧ t.port = es := by
  have hc' := collectingFrame_setPort hc es
  have hone : s.blocksRemaining.toNat = 1 := hc.last_iff.2 hlast
  have hlen : d.length = s.params.dsRx.toNat := by rw [length_of_arrivingBlock ha, hc.params]
  rw [step_datagram_of_size hp hlen, hc'.acceptDatagram_of_some ha, if_pos hone,
    hc'.completedFrame_storeBlock (block_length_of_arrivingBlock ha) hone]
  exact ⟨_, rfl, rfl, rfl, rfl⟩

/-- The step that takes a usable header, in any state with BUF in canonical form (R82, R83). -/
theorem step_of_usableHeader (hw : Memory.wf s.buf = true) (hp : s.port = .run (.datagram d) :: es)
    (hhd : takesHeaderPath s.params d = true)
    (hu : usable s.params (unpackRecord (slice d 0 42)).toHeaderBody = true) :
    ∃ t, step s = .next t ∧ t.out = acceptOutputs .hdrAdopted (decide (s.rsm = .collecting)) none ∧ t.port = es ∧
      CollectingFrame s.params (unpackRecord (slice d 0 42)) [] t := by
  obtain ⟨hlen, -⟩ := takesHeaderPath_iff.1 hhd
  have hnext := acceptDatagram_of_usableHeader (s := { s with port := es }) hhd hu
  exact ⟨_, (step_datagram_of_size hp hlen).trans hnext, rfl, rfl,
    collectingFrame_setOut (collectingFrame_adoptHeader (s := { s with port := es }) hw hu) _⟩

end

/-! Runs. -/

@[simp] theorem deliveries_nil : deliveries [] = [] := rfl

@[simp] theorem deliveries_cons (d : Bytes) (ds : List Bytes) :
    deliveries (d :: ds) = .run (.datagram d) :: deliveries ds := rfl

@[simp] theorem deliveries_append (ds es : List Bytes) : deliveries (ds ++ es) = deliveries ds ++ deliveries es :=
  List.map_append

theorem trace_succ {s t u : State} {k : Nat} {outs : List Outputs} (hst : step s = .next t)
    (htr : trace k t = some (outs, u)) : trace (k + 1) s = some (t.out :: outs, u) := by
  simp [trace, hst, htr]

/-- A run, then one step more. -/
theorem trace_concat {s t u : State} {k : Nat} {outs : List Outputs} (htr : trace k s = some (outs, t))
    (hst : step t = .next u) : trace (k + 1) s = some (outs ++ [u.out], u) := by
  induction k generalizing s outs with
  | zero =>
    obtain ⟨rfl, rfl⟩ : [] = outs ∧ s = t := by simpa [trace] using htr
    exact trace_succ hst rfl
  | succ k ih =>
    rw [trace] at htr
    split at htr
    · next v hv =>
      obtain ⟨⟨outs', t'⟩, htr', heq⟩ := Option.map_eq_some_iff.1 htr
      obtain ⟨rfl, rfl⟩ := Prod.mk.inj heq
      exact trace_succ hv (ih htr')
    · cases htr
    · cases htr

/-- Datagrams that are no header and do not complete the frame: none returns a frame, and the collection then holds their
blocks behind those it held (R94 (e)). -/
theorem CollectingFrame.trace_payloads {p : Params} {h : Header} {blks : List Bytes} {s : State} {ds : List Bytes}
    {rest : List PortEvent} (hc : CollectingFrame p h blks s) (hp : s.port = deliveries ds ++ rest)
    (hds : ∀ x ∈ ds, takesHeaderPath p x = false ∧ x.length ≤ 65535)
    (hmore : blks.length + (ds.filterMap (arrivingBlock p (codecOf h.toHeaderBody))).length < h.blockCount.toNat) :
    ∃ outs t, trace ds.length s = some (outs, t) ∧ (∀ o ∈ outs, o.frame = none) ∧ t.port = rest ∧
      CollectingFrame p h (blks ++ ds.filterMap (arrivingBlock p (codecOf h.toHeaderBody))) t := by
  induction ds generalizing s blks with
  | nil => exact ⟨[], s, rfl, by simp, by simpa using hp, by simpa using hc⟩
  | cons d ds ih =>
    obtain ⟨⟨hhd, hl⟩, hds'⟩ := List.forall_mem_cons.1 hds
    rw [deliveries_cons, List.cons_append] at hp
    cases ha : arrivingBlock p (codecOf h.toHeaderBody) d with
    | none =>
      rw [List.filterMap_cons_none ha] at hmore ⊢
      obtain ⟨t, hst, ho, hpt, hct⟩ := hc.step_of_none hp hl hhd ha
      obtain ⟨outs, u, htr, hos, hu⟩ := ih hct hpt hds' hmore
      exact ⟨_, u, trace_succ hst htr, List.forall_mem_cons.2 ⟨ho, hos⟩, hu⟩
    | some blk =>
      rw [List.filterMap_cons_some ha] at hmore ⊢
      rw [List.length_cons] at hmore
      obtain ⟨t, hst, ho, hpt, hct⟩ := hc.step_of_some hp ha (by omega)
      obtain ⟨outs, u, htr, hos, hu⟩ := ih hct hpt hds' (by simp only [List.length_append, List.length_singleton]; omega)
      rw [List.append_assoc, List.singleton_append] at hu
      exact ⟨_, u, trace_succ hst htr, List.forall_mem_cons.2 ⟨by rw [ho]; rfl, hos⟩, hu⟩

/-- Settles O39: the header starts an empty collection, the datagrams that follow fill it up to its last block
(`CollectingFrame.trace_payloads`), and the last returns it. -/
theorem frameIsArrivalsInOrder : Obligations.FrameIsArrivalsInOrder := by
  intro s hd d ds blks rest hinv hp hhd h stores hu hds hd' hcount hblks
  obtain ⟨-, ⟨hw, -⟩, -⟩ := (State.inv_iff s).1 hinv
  have harrive := map_inverseTransform_filter_storable s.params (codecOf h.toHeaderBody)
  have hlength : (ds.filter stores).length = (ds.filterMap (arrivingBlock s.params (codecOf h.toHeaderBody))).length := by
    simpa using congrArg List.length (harrive ds)
  obtain ⟨blk, ha⟩ := Option.isSome_iff_exists.1 (isSome_arrivingBlock.trans hd')
  have hsplit : ds.filterMap (arrivingBlock s.params (codecOf h.toHeaderBody)) ++ [blk] = blks := by
    rw [harrive, List.filterMap_append, List.filterMap_cons_some ha, List.filterMap_nil] at hblks
    exact List.map_injective_iff.2 (Option.some_injective _) hblks
  rw [hlength] at hcount
  have hp0 : s.port = .run (.datagram hd) :: (deliveries ds ++ .run (.datagram d) :: rest) := by simpa using hp
  obtain ⟨t0, hst0, hout0, hp1, hc0⟩ := step_of_usableHeader hw hp0 hhd hu
  obtain ⟨outs, t1, htr, houts, hp2, hc1⟩ := hc0.trace_payloads hp1 hds
    (by rw [List.length_nil, Nat.zero_add]; exact Nat.lt_of_succ_le hcount.le)
  rw [List.nil_append] at hc1
  obtain ⟨t, hst, hout, hrsm, hp3⟩ := hc1.step_of_last hp2 ha hcount
  have hall : trace (2 + ds.length) s = some (t0.out :: outs ++ [t.out], t) := by
    rw [Nat.add_comm]
    exact trace_concat (trace_succ hst0 htr) hst
  rw [← hsplit]
  refine ⟨_, t, hall, ?_, by rw [hout]; rfl, by rw [hout]; rfl,
    hc1.length_storedBytes (block_length_of_arrivingBlock ha) hcount, hrsm, hp3⟩
  rw [List.dropLast_concat]
  exact List.forall_mem_cons.2 ⟨by rw [hout0]; rfl, houts⟩

end Sys2Proof.Machine
end

section
/-!
PROOFS. The wire decoder of a datagram of the receiver's size is the comparison of R49, total and two-way.
-/
namespace Sys2Proof.Machine

/-- The wire decoder on a datagram of the receiver's size (R49): HD by the comparison, otherwise PR or PD by the count. -/
theorem decodeDatagram_of_size {ds : U16} {d : Bytes} (hlen : d.length = ds.toNat) (ck : Bytes → U64) (rem : Bool) :
    decodeDatagram ck ds rem d =
      .ok (if isHeaderBytes ck d then .hd d else if rem then .pr d else .pd d) := by
  have hfits : ¬65535 < d.length := by have := ds.isLt; omega
  rw [decodeDatagram, if_neg hfits, if_neg (not_not_intro hlen)]
  split_ifs <;> rfl

/-- Settles O52: with the size checked, only the comparison decides between HD and the two payload forms
(`decodeDatagram_of_size`). -/
theorem datagramIsHeaderOrPayload : Obligations.DatagramIsHeaderOrPayload := by
  intro ck ds rem d hlen
  rw [decodeDatagram_of_size hlen, ne_eq, ← isHeaderBytes_iff]
  cases isHeaderBytes ck d with
  | true => simp
  | false => cases rem <;> simp

end Sys2Proof.Machine
end

section
/-!
PROOFS. CK_ref is linear and blind to leading zeros (R58). Each byte step is linear (`crcByte_xor`) and keeps 0
(`crcByte_zero`); the whole function is their fold. Slices and little-endian numbers are linear too, hence so is the
comparison of R49.
-/
namespace Sys2Proof

/-! CK_ref, from the start value 0 and, for the linearity, from any two. -/

theorem foldl_crcByte_zeros (n : Nat) : (zeros n).foldl crcByte 0 = 0 := by
  induction n with
  | zero => rfl
  | succ n ih => rwa [zeros, List.replicate_succ, List.foldl_cons, crcByte_zero]

theorem foldl_crcByte_xor : ∀ {a b : Bytes}, a.length = b.length → ∀ c d : U64,
    (List.zipWith (· ^^^ ·) a b).foldl crcByte (c ^^^ d) = a.foldl crcByte c ^^^ b.foldl crcByte d
  | [], [], _, _, _ => rfl
  | x :: xs, y :: ys, h, c, d => by
    rw [List.zipWith_cons_cons, List.foldl_cons, crcByte_xor, foldl_crcByte_xor (Nat.succ.inj h), List.foldl_cons,
      List.foldl_cons]

/-- R58 (a). -/
theorem ckRef_zeros (n : Nat) : ckRef (zeros n) = 0 := foldl_crcByte_zeros n

/-- R58 (b). -/
theorem ckRef_zeros_append (n : Nat) (m : Bytes) : ckRef (zeros n ++ m) = ckRef m := by
  simp only [ckRef, List.foldl_append, foldl_crcByte_zeros]

/-- R58 (c). -/
theorem ckRef_xor {a b : Bytes} (h : a.length = b.length) :
    ckRef (List.zipWith (· ^^^ ·) a b) = ckRef a ^^^ ckRef b :=
  foldl_crcByte_xor h 0 0

/-! Slices and little-endian numbers over exclusive-or. -/

theorem slice_zipWith (f : Byte → Byte → Byte) (a b : Bytes) (i j : Nat) :
    slice (List.zipWith f a b) i j = List.zipWith f (slice a i j) (slice b i j) := by
  simp only [slice, List.drop_zipWith, List.take_zipWith]

/-- A low byte takes no part in the exclusive-or of what stands above it. -/
theorem byte_add_xor (x y : Byte) (m n : Nat) :
    (x.toNat + 256 * m) ^^^ (y.toNat + 256 * n) = (x ^^^ y).toNat + 256 * (m ^^^ n) := by
  have hbit (z : Byte) (k i : Nat) :
      (z.toNat + 256 * k).testBit i = if i < 8 then z.toNat.testBit i else k.testBit (i - 8) := by
    rw [Nat.add_comm]
    exact Nat.testBit_two_pow_mul_add k z.isLt i
  apply Nat.eq_of_testBit_eq
  intro i
  rw [Nat.testBit_xor, hbit, hbit, hbit, BitVec.toNat_xor]
  split_ifs <;> exact (Nat.testBit_xor ..).symm

theorem leNat_xor : ∀ {a b : Bytes}, a.length = b.length →
    leNat (List.zipWith (· ^^^ ·) a b) = leNat a ^^^ leNat b
  | [], [], _ => rfl
  | x :: xs, y :: ys, h => by
    rw [List.zipWith_cons_cons, leNat, leNat, leNat, leNat_xor (Nat.succ.inj h), byte_add_xor]

theorem le_xor (w : Nat) {a b : Bytes} (h : a.length = b.length) :
    le w (List.zipWith (· ^^^ ·) a b) = le w a ^^^ le w b := by
  rw [le, le, le, leNat_xor h, BitVec.ofNat_xor]

end Sys2Proof
end

section
/-!
PROOFS. CKSUM's answer (R56), and what the properties of CK_ref mean for the comparison and for a datagram of silence (R58).
-/
namespace Sys2Proof.Machine

/-- CKSUM ends its transaction with the checksum of the first `len` bytes as its one output (R56). -/
theorem exec_cksum (len : U16) (data : Bytes) (s : State) :
    exec (.cksum len data) s = .next (setOut (cksumOutputs (s.params.ck.run (slice data 0 len.toNat))) s) := rfl

/-- Settles O1: the first `len` bytes of an operand of `len` bytes are all of it. -/
theorem cksumGivesChecksumOfData : Obligations.CksumGivesChecksumOfData := by
  intro len data s hlen
  rw [exec_cksum, ← hlen, slice_zero_length, setOut, cksumOutputs]

/-- The exclusive-or of two header records of equal length passes the comparison: both of its sides are linear (R58). -/
theorem isHeaderBytes_ckRef_xor {a b : Bytes} (h : a.length = b.length) (ha : isHeaderBytes ckRef a = true)
    (hb : isHeaderBytes ckRef b = true) : isHeaderBytes ckRef (List.zipWith (· ^^^ ·) a b) = true := by
  have hslice (i j : Nat) : (slice a i j).length = (slice b i j).length := by rw [slice_length, slice_length, h]
  rw [isHeaderBytes_iff] at ha hb ⊢
  rw [slice_zipWith, slice_zipWith, ckRef_xor (hslice 0 34), le_xor 64 (hslice 34 42), ha, hb]

/-- 42 zero bytes are a header record under CK_ref: the checksum of 34 of them is the zero that the others say. -/
theorem isHeaderBytes_ckRef_zeros (rest : Bytes) : isHeaderBytes ckRef (zeros 42 ++ rest) = true := by
  rw [isHeaderBytes_append rest (zeros_length 42).ge, isHeaderBytes_iff]
  exact ckRef_zeros 34

theorem unpackRecord_zeros : unpackRecord (zeros 42) = Header.zero := by decide

/-- A header of zeros fails U1, since its `bpc` is 0 (R66). -/
theorem usable_zero (p : Params) : usable p Header.zero.toHeaderBody = false :=
  Bool.eq_false_iff.2 fun hu => ((usable_iff p _).1 hu).1 rfl

/-- A header that is not usable is adopted whatever `rsm_state` is, and nothing is collected (R82, R84). -/
theorem acceptDatagram_of_unusableHeader {d : Bytes} {s : State} (hhd : takesHeaderPath s.params d = true)
    (hu : usable s.params (unpackRecord (slice d 0 42)).toHeaderBody = false) :
    acceptDatagram d.length d s =
      .next (setOut (acceptOutputs .hdrUnusable (decide (s.rsm = .collecting)) none)
        (parkHeader (unpackRecord (slice d 0 42)) s)) := by
  obtain ⟨hlen, hcmp⟩ := takesHeaderPath_iff.1 hhd
  simp [acceptDatagram, hlen, hcmp, headerPath, hu, raiseDisp, finish]

/-- Silence is a header datagram that is not usable (R58): it is adopted, and a frame in progress abandoned. -/
theorem exec_of_receives_zeros {i : Instr} {rest : Bytes} {s : State} (hi : receives (zeros 42 ++ rest) i)
    (hck : s.params.ck = .reference) (hlen : (zeros 42 ++ rest).length = s.params.dsRx.toNat) :
    exec i s = .next (setOut (acceptOutputs .hdrUnusable (decide (s.rsm = .collecting)) none)
      (parkHeader Header.zero s)) := by
  have hhd : takesHeaderPath s.params (zeros 42 ++ rest) = true :=
    takesHeaderPath_iff.2 ⟨hlen, by rw [hck]; exact isHeaderBytes_ckRef_zeros rest⟩
  have hrec : unpackRecord (slice (zeros 42 ++ rest) 0 42) = Header.zero := by
    rw [slice_first rest (zeros_length 42), unpackRecord_zeros]
  rw [exec_of_receives hi, acceptDatagram_of_unusableHeader hhd (by rw [hrec]; exact usable_zero _), hrec]

/-- Settles O13: (a), (b), (c) by the fold over the bytes, the exclusive-or of two records because both sides of the
comparison are linear, and silence because its header of zeros passes the comparison and fails U1. -/
theorem ckRefIsLinearAndBlindToZeros : Obligations.CkRefIsLinearAndBlindToZeros :=
  ⟨ckRef_zeros, ckRef_zeros_append, fun _ _ => ckRef_xor,
    fun _ _ ha hb => isHeaderBytes_ckRef_xor (ha.trans hb.symm), fun _ _ _ => exec_of_receives_zeros⟩

end Sys2Proof.Machine
end

section
/-!
PROOFS. The header codec: the record as bytes and as fields (R60, R61, R63), and the comparison on a record (R62, R64).
-/
namespace Sys2Proof.Machine

/-- HDRPACK ends its transaction with the packed record as its one output (R60). -/
theorem exec_hdrpack (v : HeaderBody) (s : State) :
    exec (.hdrpack v) s = .next (setOut (hdrpackOutputs (packRecord s.params.ck.run v)) s) := rfl

/-- HDRUNPACK ends its transaction with the twelve fields as its one output (R61). -/
theorem exec_hdrunpack (r : Bytes) (s : State) :
    exec (.hdrunpack r) s = .next (setOut (hdrunpackOutputs (unpackRecord r)) s) := rfl

/-- CLASSIFY ends its transaction with the result of the comparison as its one output (R62). -/
theorem exec_classify (r : Bytes) (s : State) :
    exec (.classify r) s = .next (setOut (classifyOutputs (isHeaderBytes s.params.ck.run r)) s) := rfl

/-! Records. -/

/-- The unpacked fields of a record pack to its first 34 bytes and their checksum (R63). -/
theorem packRecord_unpackBody (ck : Bytes → U64) {r : Bytes} (h : 34 ≤ r.length) :
    packRecord ck (unpackBody r) = slice r 0 34 ++ toLe 8 (ck (slice r 0 34)) := by
  rw [packRecord, packBody_unpackBody h]

/-- The comparison of two 64-bit numbers is one of the eight bytes a record stores (R62). -/
theorem isHeaderBytes_iff_bytes (ck : Bytes → U64) {r : Bytes} (h : 42 ≤ r.length) :
    isHeaderBytes ck r = true ↔ toLe 8 (ck (slice r 0 34)) = slice r 34 42 := by
  have hstored : (slice r 34 42).length = 8 := by rw [slice_length]; omega
  rw [isHeaderBytes_iff]
  constructor
  · intro heq
    rw [heq]
    exact toLe_le hstored
  · intro heq
    rw [← heq, le_toLe _ (by decide)]

/-- Only a record that passes the comparison is what its fields pack to: the first 34 bytes always agree (R63). -/
theorem packRecord_unpackBody_eq_iff (ck : Bytes → U64) {r : Bytes} (h : r.length = 42) :
    packRecord ck (unpackBody r) = r ↔ isHeaderBytes ck r = true := by
  have hsplit : slice r 0 34 ++ slice r 34 42 = r := by
    rw [slice_append_slice r (by decide) (by decide), ← h, slice_zero_length]
  calc packRecord ck (unpackBody r) = r
      ↔ slice r 0 34 ++ toLe 8 (ck (slice r 0 34)) = slice r 0 34 ++ slice r 34 42 := by
        rw [packRecord_unpackBody ck (by omega), hsplit]
    _ ↔ toLe 8 (ck (slice r 0 34)) = slice r 34 42 := List.append_right_inj _
    _ ↔ isHeaderBytes ck r = true := (isHeaderBytes_iff_bytes ck h.ge).symm

/-- Settles O11: unpacking inverts packing (`unpackRecord_packRecord`), and packing restores a record that passes the
comparison and no other (`packRecord_unpackBody_eq_iff`). -/
theorem packAndUnpackAreInverse : Obligations.PackAndUnpackAreInverse := by
  constructor
  · intro v s
    refine ⟨_, _, _, exec_hdrpack v s, rfl, exec_hdrunpack _ s, ?_⟩
    rw [setOut_out, unpackRecord_packRecord, slice_packRecord_span]
    rfl
  · intro r s h
    exact ⟨_, _, _, _, _, _, exec_hdrunpack r s, rfl, exec_hdrpack _ s, rfl, exec_classify r s, rfl,
      packRecord_unpackBody _ (by omega), packRecord_unpackBody_eq_iff _ h⟩

/-- Settles O12: a packed record passes the comparison for every CK, a record that passes it stores its checksum, and
the comparison looks at the first 42 bytes alone. -/
theorem packedRecordsAreHeaders : Obligations.PackedRecordsAreHeaders := by
  refine ⟨fun v s => ?_, fun r s h => ?_, fun ck r x y h => ?_⟩
  · refine ⟨_, _, _, exec_hdrpack v s, rfl, exec_classify _ s, ?_⟩
    rw [setOut_out, isHeaderBytes_packRecord]
    rfl
  · exact ⟨_, exec_classify r s, Option.some_inj.trans (isHeaderBytes_iff_bytes _ h.ge)⟩
  · rw [isHeaderBytes_append x h.ge, isHeaderBytes_append y h.ge]

/-- Settles O2: the record is the body and its checksum (`exec_hdrpack`), with the body written out. -/
theorem hdrpackGivesRecord : Obligations.HdrpackGivesRecord := by
  intro v s
  rw [exec_hdrpack, packRecord, packBody, setOut, hdrpackOutputs]

/-- Settles O3: the fields are those of `unpackRecord` (`exec_hdrunpack`), each written out at its offset. -/
theorem hdrunpackGivesFields : Obligations.HdrunpackGivesFields := by
  intro r s _
  rw [exec_hdrunpack, unpackRecord, unpackBody, setOut, hdrunpackOutputs]

/-- Settles O4: the output is the comparison (`exec_classify`), decided by `isHeaderBytes_iff`. -/
theorem classifyComparesChecksum : Obligations.ClassifyComparesChecksum := by
  intro r s _
  have hdecide := Bool.eq_iff_iff.2 ((isHeaderBytes_iff s.params.ck.run r).trans decide_eq_true_iff.symm)
  rw [exec_classify, hdecide, setOut, classifyOutputs]

end Sys2Proof.Machine
end

section
/-!
PROOFS. The nine checks of a usable header, as R66 writes them.
-/
namespace Sys2Proof.Machine

/-- Check U9 (R66): there is nothing to invert, or an entry is for the nibble. -/
theorem codecInvDefined_iff (p : Params) (c : U4) :
    codecInvDefined p c = true ↔ c = 0 ∨ ∃ e, e ∈ p.codecInv ∧ e.nibble = c := by
  by_cases h : c = 0#4
  · simp [codecInvDefined, h]
  · simp [codecInvDefined, codecEntry, h]

/-- Settles O16: the model's nine checks (`usable_iff`), with `bpc` as a remainder and the sizes of U2 compared as
numbers. -/
theorem usableIsTheNineChecks : Obligations.UsableIsTheNineChecks := by
  intro p h bpc codec spb
  rw [usable_iff, codecInvDefined_iff, rxSpb, frameBytes, bpcOf_eq, ← BitVec.toNat_inj]
  rfl

end Sys2Proof.Machine
end

section
/-!
PROOFS. The packetizer: when EMIT is refused (R69), and what an admitted EMIT sends (R70 to R74).
-/
namespace Sys2Proof.Machine

/-- A refused EMIT answers `emit_ok` = 0 and emits nothing (R69). -/
theorem exec_emit_of_refused {q : EmitRequest} {s : State} (h : emitRefused s.params q = true) :
    exec (.emit q) s = .next (setOut { Outputs.idle with emitOk := some false } s) := by
  rw [exec, execEmit, packetize, if_pos h, emitOutputs, finish]

/-- An admitted EMIT answers `emit_ok` = 1 and emits the header datagram before the payload (R69, R72). -/
theorem exec_emit_of_admitted {q : EmitRequest} {s : State} (h : emitRefused s.params q = false) :
    exec (.emit q) s = .next (setOut
      { Outputs.idle with emitOk := some true, datagrams := emitHeader s.params q :: emitPayload s.params q } s) := by
  rw [exec, execEmit, packetize, if_neg (Bool.eq_false_iff.1 h), emitOutputs, finish]

/-- Settles O7: the four checks are `emitRefused_iff`, and each side of them decides the answer; the header datagram is
sent even where the batch is empty. -/
theorem emitRefusedExactlyOnItsChecks : Obligations.EmitRefusedExactlyOnItsChecks := by
  intro q s _ spb refused
  have hiff : emitRefused s.params q = true ↔ refused := emitRefused_iff s.params q
  constructor
  · intro h
    exact exec_emit_of_refused (hiff.2 h)
  · intro h
    exact ⟨_, List.cons_ne_nil _ _, exec_emit_of_admitted (Bool.eq_false_iff.2 (mt hiff.1 h))⟩

/-- Full block `k` is zero-filled from its `B` bytes of samples (R73). -/
theorem emitFull_eq (p : Params) {q : EmitRequest} (hq : q.samples.length = q.sampleBytes) {k : Nat}
    (hk : k < emitComplete q) :
    emitFull p q k = forwardTransform p q.codec
      (slice q.samples (k * emitBlockBytes q) ((k + 1) * emitBlockBytes q) ++
        zeros (q.datagramSize.toNat - emitBlockBytes q)) := by
  rw [emitFull, fillDatagram, emitFull_slice_length hq hk]

/-- The remainder block is zero-filled from its `R` bytes of samples (R74). -/
theorem emitLast_eq (p : Params) {q : EmitRequest} (hq : q.samples.length = q.sampleBytes) :
    emitLast p q = forwardTransform p q.codec
      (slice q.samples (emitComplete q * emitBlockBytes q)
          (emitComplete q * emitBlockBytes q + emitRemainderBytes q) ++
        zeros (q.datagramSize.toNat - emitRemainderBytes q)) := by
  rw [emitLast, fillDatagram, emitLast_slice_length hq]

/-- Settles O8: the counts fit (`Admitted`), the record is the one of `emitFields` with `sampleEncoding` as the shift
of R71, and every block is its samples and their zero fill (`emitFull_eq`, `emitLast_eq`). -/
theorem emitSendsHeaderThenBlocks : Obligations.EmitSendsHeaderThenBlocks := by
  intro q s hq hadm n bpc size spb cbc rem bc fields b r fwd
  have hfields : emitFields q = fields := by
    rw [emitFields, sampleEncodingOf_eq]
    rfl
  refine ⟨(admitted_of_not_refused hadm).bc_lt, ?_, ?_⟩
  · intro hc d
    exact (congrArg (forwardTransform s.params · d) hc).trans (forwardTransform_zero s.params d)
  · have hfull := List.map_congr_left fun k hk => emitFull_eq s.params hq (List.mem_range.1 hk)
    rw [exec_emit_of_admitted hadm, emitHeader, hfields, emitPayload, hfull, emitLast_eq s.params hq]
    rfl

end Sys2Proof.Machine
end

section
/-!
PROOFS. What a collection holds while it is not complete (R94): the invariant `CollectingFrame` after a usable header and
any datagrams that are no header and do not complete the frame, read field by field.
-/
namespace Sys2Proof.Machine

/-! Runs: the first step, and one run after another. -/

/-- The first step of a run, and the run that follows it. -/
theorem trace_succ_cases {s u : State} {k : Nat} {outs : List Outputs} (h : trace (k + 1) s = some (outs, u)) :
    ∃ t outs', step s = .next t ∧ trace k t = some (outs', u) ∧ outs = t.out :: outs' := by
  rw [trace] at h
  split at h
  · next t ht =>
    obtain ⟨⟨outs', u'⟩, htr, heq⟩ := Option.map_eq_some_iff.1 h
    obtain ⟨rfl, rfl⟩ := Prod.mk.inj heq
    exact ⟨t, outs', ht, htr, rfl⟩
  · cases h
  · cases h

theorem trace_append {s t u : State} {j k : Nat} {outs outs' : List Outputs} (hj : trace j s = some (outs, t))
    (hk : trace k t = some (outs', u)) : trace (j + k) s = some (outs ++ outs', u) := by
  induction j generalizing s outs with
  | zero =>
    obtain ⟨rfl, rfl⟩ : [] = outs ∧ s = t := by simpa [trace] using hj
    rwa [Nat.zero_add]
  | succ j ih =>
    obtain ⟨v, outs₁, hst, htr, rfl⟩ := trace_succ_cases hj
    rw [Nat.succ_add]
    exact trace_succ hst (ih htr)

/-- A run gives the outputs of each of its steps. -/
theorem trace_length {s t : State} {k : Nat} {outs : List Outputs} (h : trace k s = some (outs, t)) :
    outs.length = k := by
  induction k generalizing s outs with
  | zero =>
    obtain ⟨rfl, -⟩ : [] = outs ∧ s = t := by simpa [trace] using h
    rfl
  | succ k ih =>
    obtain ⟨v, outs₁, -, htr, rfl⟩ := trace_succ_cases h
    rw [List.length_cons, ih htr]

/-! What the blocks stored so far say of the counters. -/

/-- As many blocks arrive as datagrams are storable. -/
theorem length_filter_storable (p : Params) (c : U4) (ds : List Bytes) :
    (ds.filter (storable p c)).length = (ds.filterMap (arrivingBlock p c)).length := by
  simpa using congrArg List.length (map_inverseTransform_filter_storable p c ds)

section
variable {p : Params} {h : Header} {blks : List Bytes} {s : State}

/-- R94 (a): a frame is collected under a usable header only. -/
theorem CollectingFrame.usable_hdr (hc : CollectingFrame p h blks s) : usable p h.toHeaderBody = true := by
  obtain ⟨-, rfl, rfl, hf, -⟩ := hc
  exact ((State.frameOk_iff s).1 hf).1

/-- R94 (b): what is left of the header's count. -/
theorem CollectingFrame.remaining_add_stored (hc : CollectingFrame p h blks s) :
    1 ≤ s.blocksRemaining.toNat ∧ s.blocksRemaining.toNat + blks.length = h.blockCount.toNat := by
  obtain ⟨-, ⟨hpos, hle⟩, -⟩ := (State.frameOk_iff s).1 hc.frameOk
  have hstored := hc.stored
  rw [blockIndex, hc.hdr] at hstored
  rw [hc.hdr] at hle
  omega

/-- R94 (c): only full blocks are stored before the last. -/
theorem CollectingFrame.nextOffset_eq (hc : CollectingFrame p h blks s) :
    s.nextOffset.toNat = blks.length * fullBlockBytes p h.toHeaderBody := by
  obtain ⟨-, -, hoffset⟩ := (State.frameOk_iff s).1 hc.frameOk
  rw [hoffset, hc.stored, hc.params, hc.hdr]

/-- The blocks stored before the last are no more than the complete ones (R65, R86). -/
theorem CollectingFrame.stored_le_complete (hc : CollectingFrame p h blks s) :
    blks.length ≤ h.completeBlockCount.toNat := by
  obtain ⟨-, -, -, -, hcount, -⟩ := (usable_iff p h.toHeaderBody).1 hc.usable_hdr
  obtain ⟨hpos, hsum⟩ := hc.remaining_add_stored
  rw [blocksFor] at hcount
  split at hcount <;> omega

end

/-- A usable header, then datagrams that are no header and do not complete its frame: every step answers, none returns a
frame, and the collection holds exactly the blocks that arrived, in order (R83, R94). -/
theorem trace_header_payloads {s : State} {hd : Bytes} {ds : List Bytes} {rest : List PortEvent}
    (hinv : s.inv = true) (hp : s.port = deliveries (hd :: ds) ++ rest) (hhd : takesHeaderPath s.params hd = true)
    (hu : usable s.params (unpackRecord (slice hd 0 42)).toHeaderBody = true)
    (hds : ∀ x ∈ ds, takesHeaderPath s.params x = false ∧ x.length ≤ 65535)
    (hmore : (ds.filter (storable s.params (codecOf (unpackRecord (slice hd 0 42)).toHeaderBody))).length <
      (unpackRecord (slice hd 0 42)).blockCount.toNat) :
    ∃ outs t, trace (1 + ds.length) s = some (outs, t) ∧ (∀ o ∈ outs, o.frame = none) ∧ t.port = rest ∧
      CollectingFrame s.params (unpackRecord (slice hd 0 42))
        (ds.filterMap (arrivingBlock s.params (codecOf (unpackRecord (slice hd 0 42)).toHeaderBody))) t := by
  obtain ⟨-, ⟨hw, -⟩, -⟩ := (State.inv_iff s).1 hinv
  obtain ⟨t₀, hst, hout, hp₀, hc₀⟩ := step_of_usableHeader hw hp hhd hu
  rw [length_filter_storable] at hmore
  obtain ⟨outs, t, htr, houts, hpt, hc⟩ := hc₀.trace_payloads hp₀ hds (by rwa [List.length_nil, Nat.zero_add])
  rw [Nat.add_comm]
  exact ⟨_, t, trace_succ hst htr, List.forall_mem_cons.2 ⟨by rw [hout]; rfl, houts⟩, hpt, hc⟩

/-- Settles O40: what `CollectingFrame` says of the state after the header and the datagrams (`trace_header_payloads`),
with the place of the due block from `frameOk_due`. -/
theorem blocksAreStoredInArrivalOrder : Obligations.BlocksAreStoredInArrivalOrder := by
  intro s hd ds blks rest hinv hp hhd h stores hu hds hmore hblks
  obtain ⟨outs, t, htr, -, hpt, hc⟩ := trace_header_payloads hinv hp hhd hu hds hmore
  have harrived : ds.filterMap (arrivingBlock s.params (codecOf h.toHeaderBody)) = blks := by
    rw [map_inverseTransform_filter_storable] at hblks
    exact List.map_injective_iff.2 (Option.some_injective _) hblks
  rw [harrived] at hc
  obtain ⟨hpos, hsum⟩ := hc.remaining_add_stored
  obtain ⟨-, -, hinside, hend, hroom⟩ := frameOk_due hc.frameOk
  rw [hc.hdr] at hinside hend hroom
  rw [hc.params] at hroom
  have husable : usable t.params t.hdr.toHeaderBody = true := by
    rw [hc.params, hc.hdr]
    exact hu
  exact ⟨outs, t, htr, hc.collecting, hpt, hc.hdr, husable, hpos, hsum, hc.stored_le_complete, hc.nextOffset_eq,
    hinside, hroom, hend, hc.data⟩

end Sys2Proof.Machine
end

section
/-!
PROOFS. The round trip (R96): the header an EMIT sends is usable by a receiver of its size with room for the batch, its
payload datagrams bring that receiver the blocks of the batch, and a collection that is fed all its blocks answers the
dispositions of R96 and returns them.
-/
namespace Sys2Proof.Machine

/-! What an admitted EMIT sends. -/

/-- An EMIT that answers `emit_ok` = 1 was admitted, and its datagrams are the header's and the payload's (R69, R75). -/
theorem datagrams_of_emitOk {q : EmitRequest} {s t : State} (h : exec (.emit q) s = .next t)
    (hok : t.out.emitOk = some true) :
    emitRefused s.params q = false ∧ t.out.datagrams = emitHeader s.params q :: emitPayload s.params q := by
  cases hr : emitRefused s.params q with
  | true =>
    rw [exec_emit_of_refused hr] at h
    obtain rfl := next_inj h
    simp at hok
  | false =>
    rw [exec_emit_of_admitted hr] at h
    obtain rfl := next_inj h
    exact ⟨rfl, rfl⟩

/-- The same request with the codec nibble 0: its payload datagrams are those of `q` before the forward transform (R76). -/
def uncoded (q : EmitRequest) : EmitRequest := { q with codec := 0 }

/-- Full block `k` before the transform (R73). -/
theorem emitFull_uncoded (p : Params) (q : EmitRequest) (k : Nat) :
    emitFull p (uncoded q) k =
      fillDatagram q (slice q.samples (k * emitBlockBytes q) ((k + 1) * emitBlockBytes q)) :=
  forwardTransform_zero _ _

/-- The remainder block before the transform (R74). -/
theorem emitLast_uncoded (p : Params) (q : EmitRequest) :
    emitLast p (uncoded q) =
      fillDatagram q (slice q.samples (emitComplete q * emitBlockBytes q)
        (emitComplete q * emitBlockBytes q + emitRemainderBytes q)) :=
  forwardTransform_zero _ _

/-- The payload of the request before the transform, block by block (R73 to R75). -/
theorem emitPayload_uncoded (p : Params) (q : EmitRequest) :
    emitPayload p (uncoded q) =
      (List.range (emitComplete q)).map (emitFull p (uncoded q)) ++
        if 0 < emitRemainder q then [emitLast p (uncoded q)] else [] := rfl

/-- The transform is applied to each payload datagram (R76). -/
theorem emitPayload_eq_map (p : Params) (q : EmitRequest) :
    emitPayload p q = (emitPayload p (uncoded q)).map (forwardTransform p q.codec) := by
  have hfull : emitFull p q = forwardTransform p q.codec ∘ emitFull p (uncoded q) := by
    funext k
    rw [Function.comp_apply, emitFull_uncoded, emitFull]
  have hlast : emitLast p q = forwardTransform p q.codec (emitLast p (uncoded q)) := by
    rw [emitLast_uncoded, emitLast]
  rw [emitPayload_uncoded, emitPayload, List.map_append, List.map_map, hfull, hlast, apply_ite (List.map _),
    List.map_singleton, List.map_nil]

/-! What a receiver of the request's datagram size makes of its header. -/

section
variable {p ptx : Params} {q : EmitRequest}

theorem rxSpb_emitFields (hsize : p.dsRx = q.datagramSize) : rxSpb p (emitFields q) = emitSpb q := by
  rw [rxSpb, bpcOf_emitFields, hsize, emitSpb]

theorem frameBytes_emitFields (q : EmitRequest) : frameBytes (emitFields q) = q.sampleBytes := by
  rw [frameBytes, bpcOf_emitFields, EmitRequest.sampleBytes, emitFields]

/-- The header an admitted EMIT sends meets the nine checks of a receiver with its datagram size, room for the batch and
an inverse codec (R66, R77). -/
theorem usable_emitFields (hadm : Admitted ptx q) (hsize : p.dsRx = q.datagramSize) (hcount : 1 ≤ q.count.toNat)
    (hroom : q.sampleBytes ≤ p.bufBytes) (hcodec : codecInvDefined p q.codec = true) :
    usable p (emitFields q) = true := by
  obtain ⟨hbc, hcbc, hrem⟩ := emitFields_counts hadm
  rw [usable_iff, bpcOf_emitFields, rxSpb_emitFields hsize, frameBytes_emitFields, codecOf_emitFields, hbc, hcbc, hrem]
  exact ⟨hadm.bpc_ne, hsize.symm, hadm.spb_pos, emitBlocks_pos hcount, rfl, emit_count_eq q, hadm.rem_lt, hroom, hcodec⟩

/-- A complete block holds `B` bytes of the batch (R73, R86). -/
theorem blockLength_emitFields_full (hadm : Admitted ptx q) (hsize : p.dsRx = q.datagramSize) {k : Nat}
    (hk : k < emitComplete q) : blockLength p (emitFields q) k = emitBlockBytes q := by
  obtain ⟨-, hcbc, -⟩ := emitFields_counts hadm
  rw [blockLength, blockSamples, hcbc, if_pos hk, rxSpb_emitFields hsize, bpcOf_emitFields, emitBlockBytes]

/-- The block after the complete ones holds the rest (R74, R86). -/
theorem blockLength_emitFields_last (hadm : Admitted ptx q) :
    blockLength p (emitFields q) (emitComplete q) = emitRemainderBytes q := by
  obtain ⟨-, hcbc, hrem⟩ := emitFields_counts hadm
  rw [blockLength, blockSamples, hcbc, if_neg (lt_irrefl _), hrem, bpcOf_emitFields, emitRemainderBytes]

/-! The blocks, put together, are the batch. -/

/-- The first `k` complete blocks are the first `k * B` bytes of the batch. -/
theorem storedBytes_emitFull (hadm : Admitted ptx q) (hsize : p.dsRx = q.datagramSize)
    (hq : q.samples.length = q.sampleBytes) {k : Nat} (hk : k ≤ emitComplete q) :
    storedBytes p (emitFields q) 0 ((List.range k).map (emitFull ptx (uncoded q))) =
      slice q.samples 0 (k * emitBlockBytes q) := by
  induction k with
  | zero => simp [storedBytes, slice]
  | succ k ih =>
    have hnext : slice (fillDatagram q (slice q.samples (k * emitBlockBytes q) ((k + 1) * emitBlockBytes q))) 0
        (emitBlockBytes q) = slice q.samples (k * emitBlockBytes q) ((k + 1) * emitBlockBytes q) :=
      slice_first _ (emitFull_slice_length hq hk)
    rw [List.range_succ, List.map_append, List.map_singleton, storedBytes_concat, ih (Nat.le_of_succ_le hk),
      List.length_map, List.length_range, Nat.zero_add, blockLength_emitFields_full hadm hsize hk, emitFull_uncoded,
      hnext, slice_append_slice _ (Nat.zero_le _) (Nat.mul_le_mul_right _ (Nat.le_succ k))]

/-- All the blocks are the whole batch, byte for byte (R39, R73, R74). -/
theorem storedBytes_emitPayload (hadm : Admitted ptx q) (hsize : p.dsRx = q.datagramSize)
    (hq : q.samples.length = q.sampleBytes) :
    storedBytes p (emitFields q) 0 (emitPayload ptx (uncoded q)) = q.samples := by
  have htotal := emit_sampleBytes_eq q
  have hfull := storedBytes_emitFull hadm hsize hq (le_refl (emitComplete q))
  rw [emitPayload_uncoded]
  split
  · next hrem =>
    have hrest : slice (fillDatagram q (slice q.samples (emitComplete q * emitBlockBytes q)
        (emitComplete q * emitBlockBytes q + emitRemainderBytes q))) 0 (emitRemainderBytes q) =
        slice q.samples (emitComplete q * emitBlockBytes q)
          (emitComplete q * emitBlockBytes q + emitRemainderBytes q) :=
      slice_first _ (emitLast_slice_length hq)
    rw [storedBytes_concat, hfull, List.length_map, List.length_range, Nat.zero_add, blockLength_emitFields_last hadm,
      emitLast_uncoded, hrest, slice_append_slice _ (Nat.zero_le _) (Nat.le_add_right _ _), ← htotal, ← hq,
      slice_zero_length]
  · next hrem =>
    have hnone : emitRemainderBytes q = 0 := by simp [emitRemainderBytes, Nat.le_zero.1 (not_lt.1 hrem)]
    rw [hnone, Nat.add_zero] at htotal
    rw [List.append_nil, hfull, ← htotal, ← hq, slice_zero_length]

end

/-! A collection that gets all its blocks. -/

/-- Datagrams that each bring a block, the last one not among them: each is stored (R89, R90). -/
theorem CollectingFrame.trace_blocks {p : Params} {h : Header} {blks new ds : List Bytes} {s : State}
    {rest : List PortEvent} (hc : CollectingFrame p h blks s) (hp : s.port = deliveries ds ++ rest)
    (hnew : ds.map (arrivingBlock p (codecOf h.toHeaderBody)) = new.map some)
    (hmore : blks.length + new.length < h.blockCount.toNat) :
    ∃ t, trace ds.length s = some (List.replicate ds.length (acceptOutputs .payStored false none), t) ∧
      t.port = rest ∧ CollectingFrame p h (blks ++ new) t := by
  induction ds generalizing s blks new with
  | nil =>
    obtain rfl : new = [] := List.map_eq_nil_iff.1 hnew.symm
    exact ⟨s, rfl, hp, by rwa [List.append_nil]⟩
  | cons d ds ih =>
    obtain ⟨blk, new, rfl⟩ : ∃ blk new', new = blk :: new' := List.exists_cons_of_ne_nil (by rintro rfl; simp at hnew)
    obtain ⟨hd, hds⟩ := List.cons_eq_cons.1 hnew
    rw [List.length_cons] at hmore
    obtain ⟨t, hst, ho, hpt, hct⟩ := hc.step_of_some hp hd (by omega)
    obtain ⟨u, htr, hpu, hcu⟩ :=
      ih hct hpt hds (by rw [List.length_append, List.length_singleton]; omega)
    rw [List.append_assoc, List.singleton_append] at hcu
    refine ⟨u, ?_, hpu, hcu⟩
    rw [List.length_cons, List.replicate_succ, ← ho]
    rw [← ho] at htr
    exact trace_succ hst htr

/-- A usable header and as many blocks as it counts, from any state with BUF in canonical form: the frame is those blocks
(R83, R89, R90). -/
theorem trace_header_blocks {s : State} {hd : Bytes} {ds blks : List Bytes} {rest : List PortEvent}
    (hw : Memory.wf s.buf = true) (hp : s.port = deliveries (hd :: ds) ++ rest)
    (hhd : takesHeaderPath s.params hd = true)
    (hu : usable s.params (unpackRecord (slice hd 0 42)).toHeaderBody = true)
    (hblks : ds.map (arrivingBlock s.params (codecOf (unpackRecord (slice hd 0 42)).toHeaderBody)) = blks.map some)
    (hcount : blks.length = (unpackRecord (slice hd 0 42)).blockCount.toNat) :
    ∃ t, trace (1 + ds.length) s =
        some (acceptOutputs .hdrAdopted (decide (s.rsm = .collecting)) none ::
          (List.replicate (ds.length - 1) (acceptOutputs .payStored false none) ++ [t.out]), t) ∧
      t.out = acceptOutputs .frameDone false (some
        { hdr := unpackRecord (slice hd 0 42)
          data := storedBytes s.params (unpackRecord (slice hd 0 42)).toHeaderBody 0 blks }) ∧
      t.rsm = .awaitingHeader ∧ t.port = rest := by
  obtain ⟨-, -, -, hpos, -⟩ := (usable_iff s.params _).1 hu
  have hlength : ds.length = blks.length := by simpa using congrArg List.length hblks
  obtain ⟨init, d, rfl⟩ := (List.eq_nil_or_concat' ds).resolve_left (by rintro rfl; simp at hlength; omega)
  obtain ⟨held, blk, rfl⟩ := (List.eq_nil_or_concat' blks).resolve_left (by rintro rfl; simp at hlength)
  simp only [List.map_append, List.map_singleton] at hblks
  obtain ⟨hheld, hlast⟩ := List.append_inj' hblks rfl
  rw [List.length_append, List.length_singleton] at hcount
  have hp' : s.port = .run (.datagram hd) :: (deliveries init ++ .run (.datagram d) :: rest) := by simpa using hp
  obtain ⟨t₀, hst₀, hout₀, hp₀, hc₀⟩ := step_of_usableHeader hw hp' hhd hu
  obtain ⟨t₁, htr, hp₁, hc₁⟩ := hc₀.trace_blocks hp₀ hheld (by rw [List.length_nil]; omega)
  rw [List.nil_append] at hc₁
  obtain ⟨t, hst, hout, hrsm, hpt⟩ := hc₁.step_of_last hp₁ (List.singleton_inj.1 hlast) hcount
  refine ⟨t, ?_, hout, hrsm, hpt⟩
  rw [List.length_append, List.length_singleton, Nat.add_comm, Nat.add_sub_cancel, ← hout₀]
  exact trace_concat (trace_succ hst₀ htr) hst

/-! The datagrams of an EMIT at a receiver. -/

/-- The conditions of R96: a sender with the parameters `ptx` admits the batch `q`, and a receiver with the parameters `p`
has its checksum and datagram size, room for the frame, and a codec that undoes the sender's on the frame's blocks, none of
which passes the comparison. -/
structure RoundTrip (p ptx : Params) (q : EmitRequest) : Prop where
  samples  : q.samples.length = q.sampleBytes
  admitted : Admitted ptx q
  checksum : p.ck = ptx.ck
  size     : p.dsRx = q.datagramSize
  count    : 1 ≤ q.count.toNat
  room     : q.sampleBytes ≤ p.bufBytes
  codec    : codecInvDefined p q.codec = true
  inverse  : ∀ d ∈ emitPayload ptx (uncoded q),
    inverseTransform p q.codec (forwardTransform ptx q.codec d) = some d
  payload  : ∀ d ∈ emitPayload ptx q, isHeaderBytes p.ck.run d = false

/-- The header EMIT packs (R71, R72). -/
def emittedHeader (ptx : Params) (q : EmitRequest) : Header :=
  { toHeaderBody := emitFields q, checksum := ptx.ck.run (packBody (emitFields q)) }

section
variable {p ptx : Params} {q : EmitRequest}

theorem RoundTrip.takesHeaderPath_emitHeader (h : RoundTrip p ptx q) : takesHeaderPath p (emitHeader ptx q) = true := by
  rw [takesHeaderPath_iff, emitHeader_length h.admitted, h.size, h.checksum]
  exact ⟨rfl, isHeaderBytes_emitHeader ptx q⟩

theorem RoundTrip.usable_header (h : RoundTrip p ptx q) : usable p (emitFields q) = true :=
  usable_emitFields h.admitted h.size h.count h.room h.codec

/-- Each payload datagram brings the block it was before the sender's transform (R76, R87). -/
theorem RoundTrip.arrivingBlocks (h : RoundTrip p ptx q) :
    (emitPayload ptx q).map (arrivingBlock p q.codec) = (emitPayload ptx (uncoded q)).map some := by
  have hmem : ∀ d ∈ emitPayload ptx (uncoded q), forwardTransform ptx q.codec d ∈ emitPayload ptx q := by
    intro d hd
    rw [emitPayload_eq_map]
    exact List.mem_map_of_mem hd
  rw [emitPayload_eq_map, List.map_map]
  refine List.map_congr_left fun d hd => ?_
  have hlen := length_of_mem_emitPayload h.admitted h.samples (hmem d hd)
  rw [← h.size] at hlen
  exact arrivingBlock_eq_some_iff.2 ⟨takesPayloadPath_iff.2 ⟨hlen, h.payload _ (hmem d hd)⟩, h.inverse d hd⟩

/-- The datagrams of the EMIT, delivered in order from any state with BUF in canonical form: every block but the last is
stored, and the last returns the batch (R96). -/
theorem RoundTrip.trace_emit {s : State} {rest : List PortEvent} (h : RoundTrip s.params ptx q)
    (hw : Memory.wf s.buf = true) (hp : s.port = deliveries (emitHeader ptx q :: emitPayload ptx q) ++ rest) :
    ∃ t, trace (1 + emitBlocks q) s =
        some (acceptOutputs .hdrAdopted (decide (s.rsm = .collecting)) none ::
          (List.replicate (emitBlocks q - 1) (acceptOutputs .payStored false none) ++ [t.out]), t) ∧
      t.out = acceptOutputs .frameDone false (some { hdr := emittedHeader ptx q, data := q.samples }) ∧
      t.rsm = .awaitingHeader ∧ t.port = rest := by
  have hhdr : unpackRecord (slice (emitHeader ptx q) 0 42) = emittedHeader ptx q := unpackRecord_emitHeader ptx q
  have hblks : (emitPayload ptx q).map (arrivingBlock s.params (codecOf (emitFields q))) =
      (emitPayload ptx (uncoded q)).map some := by
    rw [codecOf_emitFields]
    exact h.arrivingBlocks
  obtain ⟨hcount, -⟩ := emitFields_counts h.admitted
  have hlen : (emitPayload ptx (uncoded q)).length = (emitFields q).blockCount.toNat :=
    (emitPayload_length ptx (uncoded q)).trans hcount.symm
  have htrace := trace_header_blocks hw hp h.takesHeaderPath_emitHeader (by rw [hhdr]; exact h.usable_header)
    (by rw [hhdr]; exact hblks) (by rw [hhdr]; exact hlen)
  have hdata : storedBytes s.params (emittedHeader ptx q).toHeaderBody 0
      (emitPayload ptx (uncoded q)) = q.samples :=
    storedBytes_emitPayload h.admitted h.size h.samples
  rwa [hhdr, hdata, emitPayload_length] at htrace

end

/-- The conditions as they read of the EMIT that answered. -/
theorem roundTrip_of_emitOk {p : Params} {tx u : State} {q : EmitRequest} (hexec : exec (.emit q) tx = .next u)
    (hok : u.out.emitOk = some true) (hq : q.samples.length = q.sampleBytes) (hck : p.ck = tx.params.ck)
    (hsize : p.dsRx = q.datagramSize) (hcount : 1 ≤ q.count.toNat) (hroom : q.sampleBytes ≤ p.bufBytes)
    (hcodec : codecInvDefined p q.codec = true)
    (hinverse : ∀ d ∈ emitPayload tx.params (uncoded q),
      inverseTransform p q.codec (forwardTransform tx.params q.codec d) = some d)
    (hpayload : ∀ d ∈ u.out.datagrams.tail, isHeaderBytes p.ck.run d = false) :
    RoundTrip p tx.params q ∧ u.out.datagrams = emitHeader tx.params q :: emitPayload tx.params q := by
  obtain ⟨hadm, hds⟩ := datagrams_of_emitOk hexec hok
  rw [hds] at hpayload
  exact ⟨⟨hq, admitted_of_not_refused hadm, hck, hsize, hcount, hroom, hcodec, hinverse, hpayload⟩, hds⟩

/-- Settles O41: the conditions are those of `RoundTrip`, and `RoundTrip.trace_emit` is the run. -/
theorem roundTripWithoutLoss : Obligations.RoundTripWithoutLoss := by
  intro s tx u q rest hinv hq hexec hok hck hsize hcount hroom hcodec hinverse hpayload hp
  obtain ⟨-, ⟨hw, -⟩, -⟩ := (State.inv_iff s).1 hinv
  obtain ⟨hround, hds⟩ := roundTrip_of_emitOk hexec hok hq hck hsize hcount hroom hcodec hinverse hpayload
  rw [hds] at hp
  obtain ⟨t, htr, hout, hrsm, hpt⟩ := hround.trace_emit hw hp
  refine ⟨_, t, htr, ?_, by rw [hout]; rfl, hrsm, hpt⟩
  rw [hout, List.map_cons, List.map_append, List.map_replicate]
  rfl

end Sys2Proof.Machine
end

section
/-!
PROOFS. Resynchronisation (R97): the datagrams of a frame cut short return nothing, the next header reports the abandonment,
and the frame it begins comes out whole.
-/
namespace Sys2Proof.Machine

/-- A header that stands next while a frame is collected reports the abandonment, returns nothing and is what `hdr` holds,
usable or not (R82 to R84). -/
theorem CollectingFrame.step_of_header {p : Params} {h : Header} {blks : List Bytes} {s : State} {d : Bytes}
    {es : List PortEvent} (hc : CollectingFrame p h blks s) (hp : s.port = .run (.datagram d) :: es)
    (hhd : takesHeaderPath p d = true) :
    ∃ t, step s = .next t ∧ t.out.frame = none ∧ t.out.abandoned = some true ∧
      t.hdr = unpackRecord (slice d 0 42) := by
  obtain ⟨hr, rfl, -⟩ := hc
  obtain ⟨hlen, -⟩ := takesHeaderPath_iff.1 hhd
  have habandoned : some (decide (s.rsm = .collecting)) = some true := by rw [decide_eq_true hr]
  rw [step_datagram_of_size hp hlen]
  cases hu : usable s.params (unpackRecord (slice d 0 42)).toHeaderBody with
  | true => exact ⟨_, acceptDatagram_of_usableHeader hhd hu, rfl, habandoned, rfl⟩
  | false => exact ⟨_, acceptDatagram_of_unusableHeader hhd hu, rfl, habandoned, rfl⟩

/-- Settles O42: up to the next header the collection is not complete and no frame is returned (`trace_header_payloads`);
the header abandons it (`CollectingFrame.step_of_header`), and an EMIT's datagrams then make their round trip as from any
other state (`RoundTrip.trace_emit`). -/
theorem resynchronisesAfterLoss : Obligations.ResynchronisesAfterLoss := by
  intro s hd lost hinv hhd h hu hlost hmore
  constructor
  · intro next rest hnext hp
    have hp' : s.port = deliveries (hd :: lost) ++ (.run (.datagram next) :: rest) := by simpa using hp
    obtain ⟨outs, t₁, htr, houts, hp₁, hc₁⟩ := trace_header_payloads hinv hp' hhd hu hlost hmore
    obtain ⟨t, hst, hframe, habandoned, hhdr⟩ := hc₁.step_of_header hp₁ hnext
    have hall : trace (2 + lost.length) s = some (outs ++ [t.out], t) := by
      rw [show 2 + lost.length = 1 + lost.length + 1 by omega]
      exact trace_concat htr hst
    exact ⟨_, t, hall, List.forall_mem_append.2 ⟨houts, List.forall_mem_singleton.2 hframe⟩, habandoned, hhdr⟩
  · intro tx u q rest hq hexec hok hck hsize hcount hroom hcodec hinverse hpayload hp
    obtain ⟨hround, hds⟩ := roundTrip_of_emitOk hexec hok hq hck hsize hcount hroom hcodec hinverse hpayload
    rw [hds, deliveries_append, List.append_assoc] at hp
    obtain ⟨outs, t₁, htr, houts, hp₁, hc₁⟩ := trace_header_payloads hinv hp hhd hu hlost hmore
    rw [← hc₁.params] at hround
    obtain ⟨t, htr', hout, -⟩ := hround.trace_emit hc₁.bufWf hp₁
    have hall := trace_append htr htr'
    rw [show 1 + lost.length + (1 + emitBlocks q) = 2 + lost.length + emitBlocks q by omega] at hall
    refine ⟨_, t, hall, ?_, ?_, by rw [hout]; rfl⟩
    · rw [← List.cons_append, ← List.append_assoc, List.dropLast_concat]
      refine List.forall_mem_append.2 ⟨houts, List.forall_mem_cons.2 ⟨rfl, fun o ho => ?_⟩⟩
      rw [List.eq_of_mem_replicate ho]
      rfl
    · rw [List.getElem?_append_right (trace_length htr).le, trace_length htr, Nat.sub_self, hc₁.collecting]
      rfl

end Sys2Proof.Machine
end

section
/-!
PROOFS. What one datagram does, row by row of the transition table (R79 to R92): dropped for its size, a header adopted or
parked, a payload datagram discarded, without an inverse transform, stored, or the last of its frame.
-/
namespace Sys2Proof.Machine

/-! The two paths, by the comparison as R81 writes it. -/

section
variable {s : State} {d blk : Bytes}

theorem takesHeaderPath_of_comparison (hlen : d.length = s.params.dsRx.toNat)
    (hcmp : s.params.ck.run (slice d 0 34) = le 64 (slice d 34 42)) : takesHeaderPath s.params d = true :=
  takesHeaderPath_iff.2 ⟨hlen, (isHeaderBytes_iff _ _).2 hcmp⟩

theorem takesPayloadPath_of_comparison (hlen : d.length = s.params.dsRx.toNat)
    (hcmp : s.params.ck.run (slice d 0 34) ≠ le 64 (slice d 34 42)) : takesPayloadPath s.params d = true :=
  takesPayloadPath_iff.2 ⟨hlen, Bool.eq_false_iff.2 (mt (isHeaderBytes_iff _ _).1 hcmp)⟩

/-! What the payload path answers; the header path and the size check have their rules already. -/

/-- With no frame in progress a payload datagram is discarded (R85). -/
theorem acceptDatagram_of_awaitingHeader (hpay : takesPayloadPath s.params d = true) (hr : s.rsm = .awaitingHeader) :
    acceptDatagram d.length d s = .next (setOut (acceptOutputs .payNosync false none) s) := by
  obtain ⟨hlen, hcmp⟩ := takesPayloadPath_iff.1 hpay
  simp [acceptDatagram, hlen, hcmp, payloadPath, hr, raiseDisp, finish]

/-- Without an inverse transform the datagram is discarded (R88). -/
theorem acceptDatagram_of_codecFailure (hf : s.frameOk = true) (hr : s.rsm = .collecting)
    (hpay : takesPayloadPath s.params d = true)
    (hinv : inverseTransform s.params (codecOf s.hdr.toHeaderBody) d = none) :
    acceptDatagram d.length d s = .next (setOut (acceptOutputs .payCodecFail false none) s) := by
  obtain ⟨hlen, -⟩ := takesPayloadPath_iff.1 hpay
  rw [acceptDatagram_of_takesPayloadPath hpay hr, collectBlock_of_frameOk hf hlen, hinv]

/-- A block that is not the last is stored, and the collection goes on (R89, R90). -/
theorem acceptDatagram_of_block (hf : s.frameOk = true) (hr : s.rsm = .collecting)
    (hpay : takesPayloadPath s.params d = true)
    (hinv : inverseTransform s.params (codecOf s.hdr.toHeaderBody) d = some blk)
    (hmore : s.blocksRemaining.toNat ≠ 1) :
    acceptDatagram d.length d s =
      .next (setOut (acceptOutputs .payStored false none) (storeBlock blk (blockBytes s) s)) := by
  obtain ⟨hlen, -⟩ := takesPayloadPath_iff.1 hpay
  rw [acceptDatagram_of_takesPayloadPath hpay hr, collectBlock_of_frameOk hf hlen, hinv]
  exact if_neg hmore

/-- The last block is stored, and the frame in BUF is returned (R89, R90). -/
theorem acceptDatagram_of_lastBlock (hf : s.frameOk = true) (hr : s.rsm = .collecting)
    (hpay : takesPayloadPath s.params d = true)
    (hinv : inverseTransform s.params (codecOf s.hdr.toHeaderBody) d = some blk)
    (hlast : s.blocksRemaining.toNat = 1) :
    acceptDatagram d.length d s =
      .next (setOut (acceptOutputs .frameDone false (some (completedFrame (storeBlock blk (blockBytes s) s))))
        (releaseFrame (storeBlock blk (blockBytes s) s))) := by
  obtain ⟨hlen, -⟩ := takesPayloadPath_iff.1 hpay
  rw [acceptDatagram_of_takesPayloadPath hpay hr, collectBlock_of_frameOk hf hlen, hinv]
  exact if_pos hlast

/-- Last or not, the block is stored; only `rsm_state` and the outputs tell the two apart (R89, R90). -/
theorem acceptDatagram_stores (hf : s.frameOk = true) (hr : s.rsm = .collecting)
    (hpay : takesPayloadPath s.params d = true)
    (hinv : inverseTransform s.params (codecOf s.hdr.toHeaderBody) d = some blk) :
    ∃ r o, acceptDatagram d.length d s = .next { storeBlock blk (blockBytes s) s with rsm := r, out := o } := by
  by_cases hlast : s.blocksRemaining.toNat = 1
  · exact ⟨_, _, acceptDatagram_of_lastBlock hf hr hpay hinv hlast⟩
  · exact ⟨_, _, acceptDatagram_of_block hf hr hpay hinv hlast⟩

/-! Where the due block goes (R86, R89). -/

theorem frameOk_of_inv (hs : s.inv = true) (hr : s.rsm = .collecting) : s.frameOk = true := by
  obtain ⟨-, -, hf⟩ := (State.inv_iff s).1 hs
  exact hf hr

/-- The block holds a sample and is no longer than what the transform gives (R67, R86). -/
theorem blockBytes_bounds (hf : s.frameOk = true) :
    2 * bpcOf s.hdr.toHeaderBody ≤ blockBytes s ∧ blockBytes s ≤ s.params.dsRx.toNat := by
  obtain ⟨hu, -⟩ := (State.frameOk_iff s).1 hf
  exact blockLength_bounds hu (frameOk_due hf).1

theorem length_slice_block (hf : s.frameOk = true) (hblk : blk.length = s.params.dsRx.toNat) :
    (slice blk 0 (blockBytes s)).length = blockBytes s := by
  obtain ⟨-, hle⟩ := blockBytes_bounds hf
  rw [slice_length]
  omega

/-- The advance of the offset does not wrap (R89, R93). -/
theorem storeBlock_nextOffset_toNat (hf : s.frameOk = true) (blk : Bytes) :
    (storeBlock blk (blockBytes s) s).nextOffset.toNat = s.nextOffset.toNat + blockBytes s := by
  obtain ⟨-, -, hinside, -⟩ := frameOk_due hf
  have h37 := frameBytes_lt s.hdr.toHeaderBody
  rw [storeBlock_nextOffset, BitVec.toNat_add, BitVec.toNat_ofNat]
  omega

theorem read_storeBlock_inside (hw : Memory.wf s.buf = true) {n k : Nat} (hn : n ≤ blk.length) (hk : k < n) :
    blk[k]? = some (Memory.read (storeBlock blk n s).buf (s.nextOffset.toNat + k)) := by
  have hlen : k < (slice blk 0 n).length := by
    rw [slice_length]
    omega
  rw [storeBlock_buf, Memory.read_writeBytes_inside hw _ _ hlen, slice_getElem]
  simp

theorem read_storeBlock_outside {n a : Nat} (ha : a < s.nextOffset.toNat ∨ s.nextOffset.toNat + n ≤ a) :
    Memory.read (storeBlock blk n s).buf a = Memory.read s.buf a := by
  have hlen : (slice blk 0 n).length ≤ n := by
    rw [slice_length]
    omega
  exact Memory.read_writeBytes_outside _ _ _ (by omega)

/-- The due block is the remainder block exactly if it is the last and there is a remainder: the two forms of R86 agree. -/
theorem blockIndex_lt_complete_iff (hf : s.frameOk = true) :
    blockIndex s < s.hdr.completeBlockCount.toNat ↔
      ¬(s.blocksRemaining.toNat = 1 ∧ 0 < s.hdr.remainderSamples.toNat) := by
  obtain ⟨hu, ⟨hpos, hle⟩, -⟩ := (State.frameOk_iff s).1 hf
  obtain ⟨-, -, -, -, hcount, -⟩ := (usable_iff _ _).1 hu
  rw [blocksFor] at hcount
  rw [blockIndex]
  split at hcount <;> omega

/-- The samples of the due block by the count alone (R86). -/
theorem blockSamples_eq (hf : s.frameOk = true) :
    blockSamples s.params s.hdr.toHeaderBody (blockIndex s) =
      if s.blocksRemaining.toNat = 1 ∧ 0 < s.hdr.remainderSamples.toNat then s.hdr.remainderSamples.toNat
      else rxSpb s.params s.hdr.toHeaderBody := by
  simp only [blockSamples, blockIndex_lt_complete_iff hf, ite_not]

/-- What BUF holds of the frame once the last block is stored: the bytes it held below `next_offset`, then the block's. -/
theorem readBytes_storeBlock_last (hw : Memory.wf s.buf = true) (hf : s.frameOk = true)
    (hblk : blk.length = s.params.dsRx.toNat) (hlast : s.blocksRemaining.toNat = 1) :
    Memory.readBytes (storeBlock blk (blockBytes s) s).buf 0 (frameBytes s.hdr.toHeaderBody) =
      Memory.readBytes s.buf 0 s.nextOffset.toNat ++
        slice blk 0 (frameBytes s.hdr.toHeaderBody - s.nextOffset.toNat) := by
  obtain ⟨-, -, -, hend, -⟩ := frameOk_due hf
  have happend := Memory.readBytes_writeBytes_append hw s.nextOffset.toNat (slice blk 0 (blockBytes s))
  rw [length_slice_block hf hblk] at happend
  rw [← hend.2 hlast, storeBlock_buf, happend, Nat.add_sub_cancel_left]

end

/-! The statements. -/

/-- Settles O15 (`acceptDatagram_of_wrongSize`). -/
theorem wrongSizeIsDropped : Obligations.WrongSizeIsDropped := by
  intro i d s hi hlen
  rw [exec_of_receives hi, acceptDatagram_of_wrongSize hlen]
  rfl

/-- Settles O18 (`acceptDatagram_of_usableHeader`). -/
theorem usableHeaderIsAdopted : Obligations.UsableHeaderIsAdopted := by
  intro i d s hi hlen hcmp hu
  rw [exec_of_receives hi, acceptDatagram_of_usableHeader (takesHeaderPath_of_comparison hlen hcmp) hu]
  rfl

/-- Settles O19 (`acceptDatagram_of_unusableHeader`). -/
theorem unusableHeaderCollectsNothing : Obligations.UnusableHeaderCollectsNothing := by
  intro i d s hi hlen hcmp hu
  rw [exec_of_receives hi, acceptDatagram_of_unusableHeader (takesHeaderPath_of_comparison hlen hcmp) hu]
  rfl

/-- Settles O20 (`acceptDatagram_of_awaitingHeader`). -/
theorem payloadWithoutHeaderIsDiscarded : Obligations.PayloadWithoutHeaderIsDiscarded := by
  intro i d s hi hlen hcmp hr
  rw [exec_of_receives hi, acceptDatagram_of_awaitingHeader (takesPayloadPath_of_comparison hlen hcmp) hr]
  rfl

/-- Settles O17: adopted if usable, parked if not, and in both cases `hdr` is what HDRUNPACK gives (`exec_hdrunpack`). -/
theorem headerAlwaysWins : Obligations.HeaderAlwaysWins := by
  intro i d s hi hlen hcmp
  have hhd := takesHeaderPath_of_comparison hlen hcmp
  rw [exec_of_receives hi, exec_hdrunpack]
  cases hu : usable s.params (unpackRecord (slice d 0 42)).toHeaderBody with
  | true =>
    exact ⟨_, _, acceptDatagram_of_usableHeader hhd hu, rfl, rfl, rfl, rfl, rfl, rfl, fun _ => ⟨rfl, rfl⟩⟩
  | false =>
    exact ⟨_, _, acceptDatagram_of_unusableHeader hhd hu, rfl, rfl, rfl, rfl, rfl, rfl, fun hr => nomatch hr⟩

/-- Settles O21 (`acceptDatagram_of_codecFailure`): under the invariant no check of the payload path comes first. -/
theorem codecFailureChangesNothing : Obligations.CodecFailureChangesNothing := by
  intro i d s hs hi hlen hcmp hr hinv
  rw [exec_of_receives hi, acceptDatagram_of_codecFailure (frameOk_of_inv hs hr) hr
    (takesPayloadPath_of_comparison hlen hcmp) hinv]
  rfl

/-- Settles O22: the block is stored whether it is the last or not (`acceptDatagram_stores`), and R86's two forms of its
length agree (`blockSamples_eq`). -/
theorem payloadBlockIsStored : Obligations.PayloadBlockIsStored := by
  intro i d blk s hs hi hlen hcmp hr hinv bpc spb rem idx ns n off
  obtain ⟨-, ⟨hw, -⟩, -⟩ := (State.inv_iff s).1 hs
  have hf := frameOk_of_inv hs hr
  obtain ⟨-, ⟨hpos, -⟩, -⟩ := (State.frameOk_iff s).1 hf
  have hbpc : bpcOf s.hdr.toHeaderBody = bpc := bpcOf_eq _
  have hspb : rxSpb s.params s.hdr.toHeaderBody = spb := by rw [rxSpb, hbpc, spbOf]
  have hns : blockSamples s.params s.hdr.toHeaderBody (blockIndex s) = ns := by
    rw [blockSamples, hspb]
    rfl
  have hn : blockBytes s = n := by rw [blockBytes, blockLength, hns, hbpc]
  have hforms := blockSamples_eq hf
  rw [hns, hspb] at hforms
  obtain ⟨hsample, hfits⟩ := blockBytes_bounds hf
  rw [hn] at hfits
  rw [hn, hbpc] at hsample
  have hblk : n ≤ blk.length := by rwa [inverseTransform_length hinv, hlen]
  obtain ⟨r, o, hnext⟩ := acceptDatagram_stores hf hr (takesPayloadPath_of_comparison hlen hcmp) hinv
  rw [hn] at hnext
  have hoffset := storeBlock_nextOffset_toNat hf blk
  rw [hn] at hoffset
  refine ⟨fun hc => ?_, hforms, hsample, hfits, _, (exec_of_receives hi s).trans hnext, hoffset, u16_pred_toNat hpos,
    Memory.wf_writeBytes hw _ _, fun k hk => read_storeBlock_inside hw hblk hk, fun a ha => read_storeBlock_outside ha,
    rfl, rfl, rfl, rfl⟩
  rw [hc] at hinv
  exact (Option.some_inj.1 ((inverseTransform_zero _ _).symm.trans hinv)).symm

/-- Settles O23: the last block brings `next_offset` to the frame's end, so BUF holds the frame
(`readBytes_storeBlock_last`); any other leaves the collection as it was but for the block (`acceptDatagram_of_block`). -/
theorem lastBlockReturnsFrame : Obligations.LastBlockReturnsFrame := by
  intro i d blk s hs hi hlen hcmp hr hinv total off bytes
  obtain ⟨-, ⟨hw, -⟩, -⟩ := (State.inv_iff s).1 hs
  have hf := frameOk_of_inv hs hr
  have hpay := takesPayloadPath_of_comparison hlen hcmp
  rw [exec_of_receives hi]
  split
  · next hlast =>
    obtain ⟨-, -, -, hend, -⟩ := frameOk_due hf
    have hsum := hend.2 hlast
    have htotal : frameBytes s.hdr.toHeaderBody = total := by rw [frameBytes, bpcOf_eq]
    have hbytes := readBytes_storeBlock_last hw hf ((inverseTransform_length hinv).trans hlen) hlast
    rw [htotal] at hsum hbytes
    have hoffset : (storeBlock blk (blockBytes s) s).nextOffset = BitVec.ofNat 37 total := by
      rw [← hsum, ← storeBlock_nextOffset_toNat hf blk, BitVec.ofNat_toNat, BitVec.setWidth_eq]
    have hcount : (storeBlock blk (blockBytes s) s).blocksRemaining = 0 := (u16_pred_eq_zero _).2 hlast
    refine ⟨by omega, (storeBlock blk (blockBytes s) s).buf, ?_, hbytes, fun a ha => ?_⟩
    · rw [acceptDatagram_of_lastBlock hf hr hpay hinv hlast, completedFrame, storeBlock_hdr, htotal, hbytes, ← hoffset,
        ← hcount]
      rfl
    · exact read_storeBlock_outside (by omega)
  · next hmore =>
    exact ⟨_, acceptDatagram_of_block hf hr hpay hinv hmore, hr, rfl⟩

/-- A step that changes `rsm_state` takes the reset input or a datagram: no other instruction writes it (R13, R92). -/
theorem step_rsm_changed {s t : State} (h : step s = .next t) (hne : t.rsm ≠ s.rsm) :
    (∃ es, s.port = .rst :: es) ∨ ∃ tx es d i, s.port = .run tx :: es ∧ s.decode tx = .ok i ∧ receives d i := by
  rcases step_cases h with ⟨-, rfl⟩ | ⟨es, hp, -⟩ | ⟨tx, es, i, hp, hdec, hexec⟩
  · exact absurd rfl hne
  · exact .inl ⟨es, hp⟩
  · rcases decode_stateless_or_receives hdec with hi | ⟨d, hi⟩
    · obtain ⟨o, rfl, -⟩ := out_of_stateless hi hexec
      exact absurd rfl hne
    · exact .inr ⟨tx, es, d, i, hp, hdec, hi⟩

/-- Settles O24: the events that change `rsm_state` are `step_rsm_changed`, and each row is the rule of its datagram. -/
theorem transitionTable : Obligations.TransitionTable := by
  refine ⟨fun s t => step_rsm_changed, fun i d s hs hi => ?_⟩
  rw [exec_of_receives hi]
  by_cases hlen : d.length = s.params.dsRx.toNat
  case neg =>
    refine ⟨_, acceptDatagram_of_wrongSize hlen, ?_⟩
    rw [if_pos hlen]
    exact ⟨⟨rfl, rfl, rfl, rfl⟩, rfl, ⟨rfl, rfl⟩, rfl⟩
  simp only [if_neg (not_not_intro hlen)]
  cases hcmp : isHeaderBytes s.params.ck.run d with
  | true =>
    have hhd := takesHeaderPath_iff.2 ⟨hlen, hcmp⟩
    cases hu : usable s.params (unpackRecord (slice d 0 42)).toHeaderBody with
    | true => exact ⟨_, acceptDatagram_of_usableHeader hhd hu, ⟨rfl, rfl, rfl, rfl⟩, rfl⟩
    | false => exact ⟨_, acceptDatagram_of_unusableHeader hhd hu, ⟨rfl, rfl, rfl, rfl⟩, ⟨rfl, rfl⟩, rfl⟩
  | false =>
    have hpay := takesPayloadPath_iff.2 ⟨hlen, hcmp⟩
    cases hr : s.rsm with
    | awaitingHeader =>
      exact ⟨_, acceptDatagram_of_awaitingHeader hpay hr, ⟨hr, rfl, rfl, rfl⟩, rfl, ⟨rfl, rfl⟩, rfl⟩
    | collecting =>
      have hf := frameOk_of_inv hs hr
      cases hinv : inverseTransform s.params (codecOf s.hdr.toHeaderBody) d with
      | none => exact ⟨_, acceptDatagram_of_codecFailure hf hr hpay hinv, ⟨hr, rfl, rfl, rfl⟩, rfl, ⟨rfl, rfl⟩, rfl⟩
      | some blk =>
        obtain ⟨-, ⟨hpos, -⟩, -⟩ := (State.frameOk_iff s).1 hf
        by_cases hmore : 1 < s.blocksRemaining.toNat
        · refine ⟨_, acceptDatagram_of_block hf hr hpay hinv (by omega), ?_⟩
          simp only [if_pos hmore]
          exact ⟨⟨hr, rfl, rfl, rfl⟩, rfl⟩
        · refine ⟨_, acceptDatagram_of_lastBlock hf hr hpay hinv (by omega), ?_⟩
          simp only [if_neg hmore]
          exact ⟨⟨rfl, rfl, rfl, rfl⟩, rfl⟩

end Sys2Proof.Machine
end

section
/-!
PROOFS. Nothing is fatal (R99). Every instruction keeps the invariant: of what a datagram can do, only adopting a header and
storing a block touch what the invariant speaks of. That there is a next state at all is the transition table (R92).
-/
namespace Sys2Proof.Machine

section
variable {s t : State}

/-- A block written inside BUF leaves BUF in order (R25, R26, R89). -/
theorem wf_below_storeBlock (hs : Memory.wf s.buf = true ∧ Memory.below s.params.bufBytes s.buf = true) {n : Nat}
    (hn : s.nextOffset.toNat + n ≤ s.params.bufBytes) (blk : Bytes) :
    Memory.wf (storeBlock blk n s).buf = true ∧ Memory.below s.params.bufBytes (storeBlock blk n s).buf = true := by
  obtain ⟨hwf, hbelow⟩ := hs
  have hlen : (slice blk 0 n).length ≤ n := by
    rw [slice_length]
    omega
  exact ⟨Memory.wf_writeBytes hwf _ _, Memory.below_writeBytes hbelow _ _ (by omega)⟩

/-- A datagram keeps the invariant: a usable header establishes R94, a block that is not the last keeps it, and where the
block awaits a header afterwards only BUF has to stay in order. -/
theorem acceptDatagram_keeps_inv {n : Nat} {d : Bytes} (hs : s.inv = true) (h : acceptDatagram n d s = .next t) :
    t.inv = true := by
  have ⟨hlegal, hbuf, hframe⟩ := (State.inv_iff s).1 hs
  rcases acceptDatagram_cases h with ⟨-, rfl⟩ | ⟨-, -, ⟨hu, rfl⟩ | ⟨-, rfl⟩⟩ | ⟨-, -, -, rfl⟩ |
    ⟨-, -, hr, ⟨-, rfl⟩ | ⟨blk, -, -, hin, -, -, ⟨hmore, rfl⟩ | ⟨-, rfl⟩⟩⟩
  · exact hs
  · exact (State.inv_iff _).2 ⟨hlegal, hbuf, fun _ => frameOk_adoptHeader hu⟩
  · exact (State.inv_iff _).2 ⟨hlegal, hbuf, nofun⟩
  · exact hs
  · exact hs
  · have hcount : s.blocksRemaining.toNat ≠ 1 := mt (u16_pred_eq_zero _).2 hmore
    exact (State.inv_iff _).2
      ⟨hlegal, wf_below_storeBlock hbuf hin blk, fun _ => frameOk_storeBlock (hframe hr) hcount blk⟩
  · exact (State.inv_iff _).2 ⟨hlegal, wf_below_storeBlock hbuf hin blk, nofun⟩

theorem exec_keeps_inv {i : Instr} (hs : s.inv = true) (h : exec i s = .next t) : t.inv = true := by
  rcases stateless_or_accept i s with hi | ⟨n, d, hi⟩
  · obtain ⟨o, rfl, -⟩ := out_of_stateless hi h
    exact hs
  · exact acceptDatagram_keeps_inv hs (hi ▸ h)

/-- An instruction without state always answers, and one that delivers a datagram answers a row of the transition table. -/
theorem exec_next_of_inv {i : Instr} (hs : s.inv = true) (hi : stateless i = true ∨ ∃ d, receives d i) :
    ∃ t, exec i s = .next t := by
  rcases hi with hi | ⟨d, hi⟩
  · obtain ⟨f, hf⟩ := exec_of_stateless hi
    exact ⟨_, hf s⟩
  · obtain ⟨-, hrows⟩ := transitionTable
    obtain ⟨t, ht, -⟩ := hrows i d s hs hi
    exact ⟨t, ht⟩

/-- A transaction is refused at the boundary, where it is none, or its instruction answers. -/
theorem runTransaction_ne_fault (hs : s.inv = true) (tx : Transaction) (f : Fault) : runTransaction tx s ≠ .fault f := by
  simp only [runTransaction]
  split
  · next i hdec =>
    obtain ⟨t, ht⟩ := exec_next_of_inv hs (decode_stateless_or_receives hdec)
    simp [ht]
  · exact nofun

/-- Only a transaction could fault: with nothing presented the state stays, and reset always answers (R113, R129). -/
theorem step_ne_fault (hs : s.inv = true) (f : Fault) : step s ≠ .fault f := by
  simp only [step]
  split
  · exact nofun
  next e es _ =>
  cases e with
  | rst => nofun
  | run tx =>
    have hpop : State.inv { s with port := es } = true := hs
    exact runTransaction_ne_fault hpop tx f

end

/-- Settles O27: no step faults (`step_ne_fault`), and a well-formed instruction answers (`exec_next_of_inv`) a state that
meets the invariant again (`exec_keeps_inv`). -/
theorem nothingIsFatal : Obligations.NothingIsFatal := by
  refine ⟨fun s f hs => step_ne_fault hs f, fun s i hs hw => ?_⟩
  obtain ⟨t, ht⟩ := exec_next_of_inv hs (stateless_or_receives hw)
  exact ⟨t, ht, exec_keeps_inv hs ht⟩

end Sys2Proof.Machine
end

section
/-!
PROOFS. Every step keeps the invariant (R18, R25, R94), and none changes a parameter (R18, R113). A step is idle, the reset
input or one instruction, and each of the three keeps both.
-/
namespace Sys2Proof.Machine

section
variable {s t : State}

/-- Reset leaves BUF in order: its contents become writes inside BUF (R22, R113). -/
theorem applyReset_keeps_inv (hs : s.inv = true) : (applyReset s).inv = true := by
  obtain ⟨hlegal, -, -⟩ := (State.inv_iff s).1 hs
  exact (State.inv_iff _).2 ⟨hlegal, ⟨Memory.ofWrites_wf _ _, Memory.ofWrites_below _ _⟩, nofun⟩

theorem step_keeps_inv (hs : s.inv = true) (h : step s = .next t) : t.inv = true := by
  have hpop (es : List PortEvent) : State.inv { s with port := es } = true := hs
  rcases step_cases h with ⟨-, rfl⟩ | ⟨es, -, rfl⟩ | ⟨-, es, i, -, -, hexec⟩
  · exact hs
  · exact applyReset_keeps_inv (hpop es)
  · exact exec_keeps_inv (hpop es) hexec

/-- No instruction changes a parameter, an input to come or the free values' counter (R18). -/
theorem exec_keeps {i : Instr} (h : exec i s = .next t) :
    t.params = s.params ∧ t.port = s.port ∧ t.freeCount = s.freeCount := by
  rcases stateless_or_accept i s with hi | ⟨n, d, hi⟩
  · obtain ⟨o, rfl, -⟩ := out_of_stateless hi h
    exact ⟨rfl, rfl, rfl⟩
  · exact acceptDatagram_keeps (hi ▸ h)

end

/-- Settles O25 (`step_keeps_inv`). -/
theorem stepKeepsInvariant : Obligations.StepKeepsInvariant := fun _ _ => step_keeps_inv

/-- Settles O46: reset keeps the parameters, and so does every instruction (`exec_keeps`). -/
theorem parametersNeverChange : Obligations.ParametersNeverChange := by
  intro s t h
  rcases step_cases h with ⟨-, rfl⟩ | ⟨es, -, rfl⟩ | ⟨-, es, i, -, -, hexec⟩
  · rfl
  · rfl
  · obtain ⟨hparams, -⟩ := exec_keeps hexec
    exact hparams

/-- Settles O26: awaiting a header, the invariant asks only for legal parameters and BUF in order. -/
theorem resetAwaitsHeader : Obligations.ResetAwaitsHeader :=
  ⟨rfl, (State.inv_iff _).2 ⟨by decide, ⟨rfl, rfl⟩, nofun⟩⟩

end Sys2Proof.Machine
end

section
/-!
PROOFS. Decoding inverts encoding (R50, R51): operand list by operand list, each read back from where it was put, whatever
bytes follow.
-/
namespace Sys2Proof

/-- A value read at another width than it was stored at is extended or cut to it (R51: a u4 is a byte on the port). -/
theorem le_toLe_setWidth {n w : Nat} (w' : Nat) (v : BitVec w) (h : w ≤ 8 * n) : le w' (toLe n v) = v.setWidth w' := by
  have hfits : v.toNat < 256 ^ n :=
    calc v.toNat < 2 ^ w := v.isLt
      _ ≤ 2 ^ (8 * n) := Nat.pow_le_pow_right (by decide) h
      _ = 256 ^ n := Nat.pow_mul 2 8 n
  rw [le, toLe, leNat_toLeNat, Nat.mod_eq_of_lt hfits, BitVec.ofNat_toNat]

theorem decodeCounted_append {len : U16} {data : Bytes} (h : data.length = len.toNat) (rest : Bytes) :
    decodeCounted (toLe 2 len ++ data ++ rest) = .ok (len, data) := by
  have hlen : le 16 (slice (toLe 2 len ++ (data ++ rest)) 0 2) = len := by
    rw [slice_toLe_first, le_toLe _ (by decide)]
  have hdata : slice (toLe 2 len ++ (data ++ rest)) 2 (2 + len.toNat) = data :=
    (slice_skip _ 0 _ (toLe_length 2 len)).trans (slice_first rest h)
  have henough : ¬(toLe 2 len ++ (data ++ rest)).length < 2 + len.toNat := by
    simp only [List.length_append, toLe_length]
    omega
  simp only [List.append_assoc, decodeCounted, hlen, if_neg henough, hdata]

theorem decodeHdrpack_append (v : HeaderBody) (rest : Bytes) : decodeHdrpack (packBody v ++ rest) = .ok v := by
  have henough : ¬(packBody v ++ rest).length < spanBytes := by simp [spanBytes]
  rw [decodeHdrpack, if_neg henough, unpackBody_packBody]

theorem decodeRecord_append {r : Bytes} (h : r.length = recordBytes) (rest : Bytes) :
    decodeRecord (r ++ rest) = .ok r := by
  have henough : ¬(r ++ rest).length < recordBytes := by simp [h]
  rw [decodeRecord, if_neg henough, slice_first (j := 42) rest h]

/-- EMIT's nine scalars as the port carries them, before the samples (R51). -/
def emitScalars (q : EmitRequest) : Bytes :=
  toLe 4 q.count ++ toLe 8 q.frequency ++ toLe 4 q.sampleRate ++ toLe 1 q.bytesPerComponent ++
  toLe 1 q.bitsPerComponent ++ toLe 2 q.datagramSize ++ toLe 1 q.codec ++ toLe 4 q.tsSec ++ toLe 4 q.tsUsec

theorem encodeEmit_eq (q : EmitRequest) : encodeEmit q = emitScalars q ++ q.samples := rfl

@[simp] theorem emitScalars_length (q : EmitRequest) : (emitScalars q).length = emitScalarBytes := by
  simp [emitScalars, emitScalarBytes]

/-- Each scalar of EMIT is read back where it was put (R51). -/
theorem read_emitScalars (q : EmitRequest) (c : Bytes) :
    le 32 (slice (emitScalars q ++ c) 0 4) = q.count ∧
    le 64 (slice (emitScalars q ++ c) 4 12) = q.frequency ∧
    le 32 (slice (emitScalars q ++ c) 12 16) = q.sampleRate ∧
    le 8 (slice (emitScalars q ++ c) 16 17) = q.bytesPerComponent.setWidth 8 ∧
    le 8 (slice (emitScalars q ++ c) 17 18) = q.bitsPerComponent ∧
    le 16 (slice (emitScalars q ++ c) 18 20) = q.datagramSize ∧
    le 8 (slice (emitScalars q ++ c) 20 21) = q.codec.setWidth 8 ∧
    le 32 (slice (emitScalars q ++ c) 21 25) = q.tsSec ∧
    le 32 (slice (emitScalars q ++ c) 25 29) = q.tsUsec := by
  simp only [emitScalars, List.append_assoc]
  refine ⟨?_, ?_, ?_, ?_, ?_, ?_, ?_, ?_, ?_⟩ <;>
    simp (disch := decide) only [slice_toLe_skip, slice_toLe_first, le_toLe, le_toLe_setWidth, Nat.reduceSub]

/-- A u4 extended to a byte passes the port's check and is itself again (R51). -/
theorem nibble_setWidth (v : U4) : (v.setWidth 8).toNat = v.toNat ∧ (v.setWidth 8).truncate 4 = v := by
  have hv := v.isLt
  constructor
  · rw [BitVec.toNat_setWidth]
    omega
  · apply BitVec.eq_of_toNat_eq
    simp only [BitVec.truncate_eq_setWidth, BitVec.toNat_setWidth]
    omega

theorem decodeEmit_append {q : EmitRequest} (h : q.samples.length = q.sampleBytes) (rest : Bytes) :
    decodeEmit (encodeEmit q ++ rest) = .ok q := by
  rw [encodeEmit_eq, List.append_assoc]
  obtain ⟨hcount, hfreq, hrate, hbpc, hbits, hsize, hcodec, hsec, husec⟩ := read_emitScalars q (q.samples ++ rest)
  obtain ⟨hbpcNat, hbpcCut⟩ := nibble_setWidth q.bytesPerComponent
  obtain ⟨hcodecNat, hcodecCut⟩ := nibble_setWidth q.codec
  have hlen : (emitScalars q ++ (q.samples ++ rest)).length = emitScalarBytes + q.sampleBytes + rest.length := by
    simp [h, Nat.add_assoc]
  have hnibbles : ¬(decide (16 ≤ q.bytesPerComponent.toNat) || decide (16 ≤ q.codec.toNat)) = true := by
    have hb := q.bytesPerComponent.isLt
    have hc := q.codec.isLt
    simp only [Bool.or_eq_true, decide_eq_true_eq]
    omega
  have hsamples : slice (emitScalars q ++ (q.samples ++ rest)) emitScalarBytes (emitScalarBytes + q.sampleBytes) =
      q.samples := (slice_skip _ 0 _ (emitScalars_length q)).trans (slice_first rest h)
  have hscalars : ¬emitScalarBytes + q.sampleBytes + rest.length < emitScalarBytes := by omega
  have henough : ¬emitScalarBytes + q.sampleBytes + rest.length < emitScalarBytes + q.sampleBytes := by omega
  have hn : q.count.toNat * 2 * q.bytesPerComponent.toNat = q.sampleBytes := rfl
  simp only [decodeEmit, hcount, hfreq, hrate, hbpc, hbits, hsize, hcodec, hsec, husec, hbpcNat, hbpcCut, hcodecNat,
    hcodecCut, hn, hlen, hsamples, if_neg hscalars, if_neg hnibbles, if_neg henough]

/-! Each select byte chooses its operand list (R50). -/

theorem decodeCommand_cksum (bs : Bytes) :
    decodeCommand (0#8 :: bs) = (decodeCounted bs).map fun p => .cksum p.1 p.2 := rfl

theorem decodeCommand_hdrpack (bs : Bytes) : decodeCommand (1#8 :: bs) = (decodeHdrpack bs).map .hdrpack := rfl

theorem decodeCommand_hdrunpack (bs : Bytes) : decodeCommand (2#8 :: bs) = (decodeRecord bs).map .hdrunpack := rfl

theorem decodeCommand_classify (bs : Bytes) : decodeCommand (3#8 :: bs) = (decodeRecord bs).map .classify := rfl

theorem decodeCommand_emit (bs : Bytes) : decodeCommand (4#8 :: bs) = (decodeEmit bs).map .emit := rfl

theorem decodeCommand_accept (bs : Bytes) :
    decodeCommand (5#8 :: bs) = (decodeCounted bs).map fun p => .accept p.1 p.2 := rfl

end Sys2Proof

namespace Sys2Proof.Machine

/-- Settles O31: a command's operand list is read back from where it was put (`decodeCounted_append`,
`decodeHdrpack_append`, `decodeRecord_append`, `decodeEmit_append`), and a datagram's format is its comparison and the
receiver's count (`decodeDatagram_of_size`). -/
theorem decodeInvertsEncode : Obligations.DecodeInvertsEncode := by
  intro ck ds rem i hw
  cases i with
  | h record => exact if_pos (of_decide_eq_true hw)
  | hd dg =>
    intro hlen _ _
    obtain ⟨-, hcmp⟩ := (Bool.and_eq_true _ _).mp hw
    rw [decode, decodeDatagram_of_size hlen, if_pos hcmp]
  | pd dg =>
    intro hlen hrem _
    obtain ⟨-, hcmp⟩ := (Bool.and_eq_true _ _).mp hw
    rw [decode, decodeDatagram_of_size hlen, if_neg (by simpa using hcmp), hrem dg rfl]
    rfl
  | pr dg =>
    intro hlen _ hrem
    obtain ⟨-, hcmp⟩ := (Bool.and_eq_true _ _).mp hw
    rw [decode, decodeDatagram_of_size hlen, if_neg (by simpa using hcmp), hrem dg rfl]
    rfl
  | cksum len data =>
    intro rest
    rw [decode, List.cons_append, decodeCommand_cksum, decodeCounted_append (of_decide_eq_true hw)]
    rfl
  | hdrpack v =>
    intro rest
    rw [decode, List.cons_append, decodeCommand_hdrpack, decodeHdrpack_append]
    rfl
  | hdrunpack record =>
    intro rest
    rw [decode, List.cons_append, decodeCommand_hdrunpack, decodeRecord_append (of_decide_eq_true hw)]
    rfl
  | classify record =>
    intro rest
    rw [decode, List.cons_append, decodeCommand_classify, decodeRecord_append (of_decide_eq_true hw)]
    rfl
  | emit q =>
    intro rest
    rw [decode, List.cons_append, decodeCommand_emit, decodeEmit_append (of_decide_eq_true hw)]
    rfl
  | accept len dg =>
    intro rest
    rw [decode, List.cons_append, decodeCommand_accept, decodeCounted_append (of_decide_eq_true hw)]
    rfl
  | reserved6 => exact fun _ => rfl
  | reserved7 => exact fun _ => rfl

/-- Settles O32: fixed words, so the decoder is run on them. -/
theorem wordsFromTheEncodingDecode : Obligations.WordsFromTheEncodingDecode := by
  refine ⟨?_, ?_, ?_, ?_, ?_, ?_⟩ <;> decide

end Sys2Proof.Machine
end

section
/-!
PROOFS. CK_ref by table look-up (R57). A byte step is linear, so it acts on the low byte, which the table answers, and on
the bits above it, which the eight steps only shift.
-/
namespace Sys2Proof

/-- Steps over zero bits only shift: the polynomial is not met (R57). -/
theorem crcBits_of_low_zero (n : Nat) (x : U64) (h : ∀ i, i < n → x.getLsbD i = false) : crcBits n x = x >>> n := by
  induction n generalizing x with
  | zero => rfl
  | succ n ih =>
    have hbit : crcBit x = x >>> 1 := by
      rw [crcBit, h 0 n.succ_pos, if_neg Bool.false_ne_true]
    have hlow : ∀ i, i < n → (x >>> 1).getLsbD i = false := by
      intro i hi
      rw [BitVec.getLsbD_ushiftRight]
      exact h (1 + i) (by omega)
    rw [crcBits, hbit, ih _ hlow, ← BitVec.shiftRight_add, Nat.add_comm]

/-- A word is its low byte and the bits above it. -/
theorem low_byte_xor_high (x : U64) : (x.truncate 8).zeroExtend 64 ^^^ ((x >>> 8) <<< 8) = x := by
  ext i hi
  simp only [BitVec.truncate_eq_setWidth, BitVec.getElem_xor, BitVec.getElem_setWidth, BitVec.getElem_shiftLeft,
    BitVec.getLsbD_setWidth, BitVec.getElem_ushiftRight]
  by_cases h8 : i < 8
  · simp [h8, BitVec.getLsbD_eq_getElem hi]
  · have : 8 + (i - 8) = i := by omega
    simp [h8, this, BitVec.getLsbD_eq_getElem hi]

/-- Eight steps are one look-up and a shift by a byte (R57). -/
theorem crcBits_eight (x : U64) : crcBits 8 x = crcTable (x.truncate 8) ^^^ (x >>> 8) := by
  have hhigh : crcBits 8 ((x >>> 8) <<< 8) = x >>> 8 := by
    have hlow : ∀ i, i < 8 → ((x >>> 8) <<< 8).getLsbD i = false := fun i hi => by simp [hi]
    rw [crcBits_of_low_zero 8 _ hlow]
    ext i hi
    simpa using BitVec.lt_of_getLsbD
  calc crcBits 8 x = crcBits 8 ((x.truncate 8).zeroExtend 64 ^^^ ((x >>> 8) <<< 8)) := by rw [low_byte_xor_high]
    _ = crcTable (x.truncate 8) ^^^ (x >>> 8) := by rw [crcBits_xor, hhigh, crcTable]

theorem crcByte_eq_table (crc : U64) (b : Byte) :
    crcByte crc b = crcTable ((crc ^^^ b.zeroExtend 64).truncate 8) ^^^ (crc >>> 8) := by
  have hshift : (b.zeroExtend 64) >>> 8 = 0#64 := by
    ext i hi
    simp
  rw [crcByte, crcBits_eight, BitVec.ushiftRight_xor_distrib, hshift, BitVec.xor_zero]

/-- Settles O14: the two folds agree step by step (`crcByte_eq_table`), and the spot values are computed. -/
theorem ckRefTableDrivenFormAgrees : Obligations.CkRefTableDrivenFormAgrees := by
  refine ⟨fun data => ?_, crcByte_eq_table, ?_, ?_, ?_, ?_, ?_, ?_, ?_⟩
  · exact congrArg (fun f => data.foldl f 0) (funext₂ crcByte_eq_table)
  all_goals decide

end Sys2Proof
end

section
/-!
PROOFS. What an admitted EMIT sends: how many datagrams, of what size (R75), and a header that a receiver can use (R65, R77).
-/
namespace Sys2Proof.Machine

/-- An empty batch has no block (R70). -/
theorem emitBlocks_of_empty {q : EmitRequest} (h : q.count = 0) : emitBlocks q = 0 := by
  simp [emitBlocks, blocksFor, emitComplete, emitRemainder, h]

/-- Settles O9: one header datagram and as many payload datagrams as it counts (`emitPayload_length`), all of the size of
the request. -/
theorem emitCountAndSizes : Obligations.EmitCountAndSizes := by
  intro q s hq hadm
  have hok := admitted_of_not_refused hadm
  have hcount : (emitHeader s.params q :: emitPayload s.params q).length = 1 + emitBlocks q := by
    rw [List.length_cons, emitPayload_length, Nat.add_comm]
  refine ⟨_, exec_emit_of_admitted hadm, rfl, hcount, ?_, ?_⟩
  · intro d hd
    rcases List.mem_cons.1 hd with rfl | hd
    · exact emitHeader_length hok
    · exact length_of_mem_emitPayload hok hq hd
  · intro h0
    rw [emitBlocks_of_empty h0] at hcount
    exact hcount

/-- Settles O10: the header unpacks to `emitFields` (`unpackRecord_emitHeader`), whose counts are those of R70, and the
nine checks are `usable_emitFields`. -/
theorem emittedHeaderIsUsable : Obligations.EmittedHeaderIsUsable := by
  intro q s t p _ hadm hexec
  have hok := admitted_of_not_refused hadm
  rw [exec_emit_of_admitted hadm] at hexec
  obtain rfl := next_inj hexec
  refine ⟨emitHeader s.params q, emitPayload s.params q, rfl, ?_⟩
  obtain ⟨hbc, hcbc, hrem⟩ := emitFields_counts hok
  have hspb : (emitFields q).datagramSize.toNat / (2 * ((emitFields q).sampleEncoding.toNat % 16)) = emitSpb q := by
    rw [← bpcOf_eq, bpcOf_emitFields]
    rfl
  simp only [unpackRecord_emitHeader, hbc, hcbc, hrem, hspb]
  exact ⟨isHeaderBytes_emitHeader s.params q, rfl, emit_count_eq q, hok.rem_lt,
    fun hsize hcount hroom hcodec => usable_emitFields hok hsize hcount hroom hcodec⟩

end Sys2Proof.Machine
end

section
/-!
PROOFS. The instructions without state: their frame (R21, R52), the reserved selects (R52), a bare record (R41), and that
they commute with a delivered datagram (R35).
-/
namespace Sys2Proof.Machine

theorem sameButOut_setOut (o : Outputs) (s : State) : s.sameButOut (setOut o s) :=
  ⟨rfl, rfl, rfl, rfl, fun _ => rfl, rfl, rfl, rfl, rfl⟩

/-- Settles O33: the outputs are a function of the parameters, and nothing else is written (`exec_of_stateless`). -/
theorem statelessInstructionsFrame : Obligations.StatelessInstructionsFrame := by
  intro i s u hi hparams
  obtain ⟨f, hf⟩ := exec_of_stateless hi
  exact ⟨_, _, hf s, hf u, sameButOut_setOut _ s, congrArg f hparams.symm⟩

/-- Settles O37: a delivered datagram does not see the outputs before it (`acceptDatagram_setOut`) and keeps the parameters,
which are all that an instruction without state reads. -/
theorem sendAndReceiveCommute : Obligations.SendAndReceiveCommute := by
  intro i j d s t hi hj ht
  obtain ⟨f, hf⟩ := exec_of_stateless hi
  have hafter : exec j (setOut (f s.params) s) = .next t := by
    rw [exec_of_receives hj, acceptDatagram_setOut, ← exec_of_receives hj, ht]
  obtain ⟨hparams, -⟩ := exec_keeps ht
  exact ⟨_, _, _, hf t, hf s, hafter, rfl, congrArg f hparams, rfl⟩

/-- A bare record ends its transaction with its fields and the result of the comparison as its outputs (R41, R49). -/
theorem exec_h (r : Bytes) (s : State) :
    exec (.h r) s = .next (setOut (recordOutputs (unpackRecord r) (isHeaderBytes s.params.ck.run r)) s) := rfl

/-- Settles O5: the outputs of `exec_h` are those of `exec_hdrunpack` and `exec_classify` together. -/
theorem recordIsUnpackedAndClassified : Obligations.RecordIsUnpackedAndClassified :=
  fun r s _ => ⟨_, _, exec_hdrunpack r s, exec_classify r s, exec_h r s⟩

theorem exec_reserved6 (s : State) : exec .reserved6 s = .next (setOut reservedOutputs s) := rfl

theorem exec_reserved7 (s : State) : exec .reserved7 s = .next (setOut reservedOutputs s) := rfl

/-- Settles O6 (`exec_reserved6`, `exec_reserved7`). -/
theorem reservedSelectsOnlySetCmdErr : Obligations.ReservedSelectsOnlySetCmdErr :=
  fun s => ⟨exec_reserved6 s, exec_reserved7 s⟩

end Sys2Proof.Machine
end

section
/-!
PROOFS. The frame a usable header describes: its blocks (R67), the block that is due (R94), and the payload transform that
its codec nibble chooses (R87).
-/
namespace Sys2Proof.Machine

/-- The blocks before the last are full and the last ends the frame (R39, R67). -/
theorem sum_blockLength {p : Params} {h : HeaderBody} (hu : usable p h = true) :
    ((List.range h.blockCount.toNat).map (blockLength p h)).sum = frameBytes h := by
  obtain ⟨-, -, -, hpos, -⟩ := (usable_iff p h).1 hu
  obtain ⟨last, hlast⟩ : ∃ n, n + 1 = h.blockCount.toNat := ⟨_, Nat.sub_add_cancel hpos⟩
  have hfull : ∀ idx ∈ List.range last, blockLength p h idx = fullBlockBytes p h := fun idx hidx =>
    blockLength_full hu (by rw [← hlast]; exact Nat.succ_lt_succ (List.mem_range.1 hidx))
  rw [← hlast, List.range_succ, List.map_append, List.sum_append, List.map_congr_left hfull, List.map_const',
    List.sum_replicate, List.length_range, smul_eq_mul, List.map_singleton, List.sum_singleton, blockLength_last hu hlast]

/-- Settles O44: the bounds are `blockLength_bounds`, the sum is `sum_blockLength`. -/
theorem usableHeaderTilesItsFrame : Obligations.UsableHeaderTilesItsFrame := by
  intro p h _ hu
  obtain ⟨hbpc, -, -, hpos, -, -, -, hfits, -⟩ := (usable_iff p h).1 hu
  refine ⟨hpos, hfits, fun idx hidx => ?_, sum_blockLength hu⟩
  obtain ⟨hsample, hle⟩ := blockLength_bounds hu hidx
  exact ⟨by omega, hle⟩

/-- Settles O43: what R94 says of the due block (`frameOk_due`, `blockBytes_bounds`), and a frame's size fits
37 bits. -/
theorem dueBlockStaysInsideFrame : Obligations.DueBlockStaysInsideFrame := by
  intro s hs hr
  have hf := frameOk_of_inv hs hr
  obtain ⟨hu, -⟩ := (State.frameOk_iff s).1 hf
  obtain ⟨hbpc, -⟩ := (usable_iff _ _).1 hu
  obtain ⟨hsample, hle⟩ := blockBytes_bounds hf
  obtain ⟨-, -, hinside, hend, hfits⟩ := frameOk_due hf
  exact ⟨hsample, by omega, hle, hinside, hfits, lt_of_le_of_lt hinside (frameBytes_lt _), hend⟩

/-- Without an entry for its nibble a transform has no result (R8, R88). -/
theorem inverseTransform_of_undefined {p : Params} {c : U4} (hdef : codecInvDefined p c = false) (d : Bytes) :
    inverseTransform p c d = none := by
  obtain ⟨hc, hentry⟩ := Bool.or_eq_false_iff.1 hdef
  rw [inverseTransform, if_neg (of_decide_eq_false hc), Option.isNone_iff_eq_none.1 (Option.isSome_eq_false_iff.1 hentry)]

/-- Settles O51: nibble 0 is the identity, an undefined one has no result, and a header that is collected is usable, so its
nibble is defined. -/
theorem payloadTransformIsChosenByNibble : Obligations.PayloadTransformIsChosenByNibble := by
  refine ⟨inverseTransform_zero, fun p c d hc hentry => ?_, fun s hs hr hnone => ?_⟩
  · have hdef : codecInvDefined p c = false :=
      Bool.eq_false_iff.2 fun h => ((codecInvDefined_iff p c).1 h).elim hc hentry
    exact inverseTransform_of_undefined hdef d
  · obtain ⟨hu, -⟩ := (State.frameOk_iff s).1 (frameOk_of_inv hs hr)
    obtain ⟨-, -, -, -, -, -, -, -, hdef⟩ := (usable_iff _ _).1 hu
    rcases (codecInvDefined_iff _ _).1 hdef with hzero | ⟨e, he, -⟩
    · exact hzero
    · rw [hnone] at he
      exact absurd he List.not_mem_nil

end Sys2Proof.Machine
end

section
/-!
PROOFS. What a delivered datagram changes and what it leaves alone, in every state (R12, R13, R31, R90, R98): each statement
reads the seven cases of `acceptDatagram_cases`.
-/
namespace Sys2Proof.Machine

/-- Settles O34: BUF is written where a block is stored, at the due block's bytes (`read_storeBlock_outside`). -/
theorem receiveFrame : Obligations.ReceiveFrame := by
  intro i d s t hi h
  rw [exec_of_receives hi] at h
  obtain ⟨hparams, hport, hfree⟩ := acceptDatagram_keeps h
  refine ⟨hparams, hport, hfree, ?_⟩
  rcases acceptDatagram_cases h with ⟨-, rfl⟩ | ⟨-, -, ⟨-, rfl⟩ | ⟨-, rfl⟩⟩ | ⟨-, -, -, rfl⟩ |
    ⟨-, -, -, ⟨-, rfl⟩ | ⟨blk, -, -, -, -, -, ⟨-, rfl⟩ | ⟨-, rfl⟩⟩⟩
  case inr.inl.inl => -- HDR_ADOPTED
    exact ⟨fun _ _ => rfl, fun _ _ _ => rfl, fun hno => absurd rfl hno, fun hno => absurd rfl hno,
      fun hno => absurd rfl hno⟩
  case inr.inl.inr => -- HDR_UNUSABLE
    exact ⟨fun _ _ => rfl, fun _ _ _ => rfl, fun _ hno => absurd rfl hno, fun _ _ _ => ⟨rfl, rfl⟩,
      fun _ hno => absurd rfl hno⟩
  case inr.inr.inr.inr.inl => -- PAY_STORED
    exact ⟨fun _ ha => read_storeBlock_outside ha, fun hno => absurd rfl hno, fun _ _ => rfl,
      fun _ hno => absurd rfl hno, fun _ _ _ => rfl⟩
  case inr.inr.inr.inr.inr => -- FRAME_DONE
    exact ⟨fun _ ha => read_storeBlock_outside ha, fun _ hno => absurd rfl hno,
      fun _ _ => rfl, fun _ _ hno => absurd rfl hno, fun _ _ hno => absurd rfl hno⟩
  all_goals exact ⟨fun _ _ => rfl, fun _ _ _ => rfl, fun _ _ => rfl, fun _ _ _ => ⟨rfl, rfl⟩, fun _ _ _ => rfl⟩

/-- An instruction that changes `hdr` delivers a datagram that takes the header path, and `hdr` is then its record (R12). -/
theorem exec_hdr_changed {i : Instr} {d : Bytes} {s t : State} (hi : receives d i) (h : exec i s = .next t)
    (hne : t.hdr ≠ s.hdr) :
    d.length = s.params.dsRx.toNat ∧ isHeaderBytes s.params.ck.run d = true ∧ t.hdr = unpackRecord (slice d 0 42) ∧
      (t.out.disp = some .hdrAdopted ∨ t.out.disp = some .hdrUnusable) := by
  rw [exec_of_receives hi] at h
  rcases acceptDatagram_cases h with ⟨-, rfl⟩ | ⟨hlen, hcmp, ⟨-, rfl⟩ | ⟨-, rfl⟩⟩ | ⟨-, -, -, rfl⟩ |
    ⟨-, -, -, ⟨-, rfl⟩ | ⟨blk, -, -, -, -, -, ⟨-, rfl⟩ | ⟨-, rfl⟩⟩⟩
  case inr.inl.inl => -- HDR_ADOPTED
    exact ⟨hlen, hcmp, rfl, .inl rfl⟩
  case inr.inl.inr => -- HDR_UNUSABLE
    exact ⟨hlen, hcmp, rfl, .inr rfl⟩
  all_goals exact absurd rfl hne

/-- Settles O47: of the inputs that are not reset only a delivered datagram can write `hdr` (`exec_hdr_changed`). -/
theorem headerRegisterIsWrittenByHeaderPathOnly : Obligations.HeaderRegisterIsWrittenByHeaderPathOnly := by
  intro s t h hne
  rcases step_cases h with ⟨-, rfl⟩ | ⟨es, hp, -⟩ | ⟨tx, es, i, hp, hdec, hexec⟩
  · exact absurd rfl hne
  · exact .inl ⟨es, hp⟩
  · rcases decode_stateless_or_receives hdec with hi | ⟨d, hi⟩
    · obtain ⟨o, rfl, -⟩ := out_of_stateless hi hexec
      exact absurd rfl hne
    · have hchanged := exec_hdr_changed hi hexec hne
      exact .inr ⟨tx, es, d, i, hp, hdec, hi, hchanged⟩

/-- An instruction that changes `rsm_state` starts a collection with a usable header, or ends one with a header that is
not usable or with its last block (R13, R109). -/
theorem exec_rsm_changed {i : Instr} {s t : State} (h : exec i s = .next t) (hne : t.rsm ≠ s.rsm) :
    (t.rsm = .collecting ∧ t.out.disp = some .hdrAdopted ∧ usable t.params t.hdr.toHeaderBody = true ∧
      t.nextOffset = 0 ∧ t.blocksRemaining = t.hdr.blockCount) ∨
    (t.rsm = .awaitingHeader ∧
      (t.out.disp = some .hdrUnusable ∨ (t.out.disp = some .frameDone ∧ s.blocksRemaining.toNat = 1))) := by
  rcases stateless_or_accept i s with hi | ⟨n, d, hi⟩
  · obtain ⟨o, rfl, -⟩ := out_of_stateless hi h
    exact absurd rfl hne
  rw [hi] at h
  rcases acceptDatagram_cases h with ⟨-, rfl⟩ | ⟨-, -, ⟨hu, rfl⟩ | ⟨-, rfl⟩⟩ | ⟨-, -, -, rfl⟩ |
    ⟨-, -, -, ⟨-, rfl⟩ | ⟨blk, -, -, -, -, -, ⟨-, rfl⟩ | ⟨hlast, rfl⟩⟩⟩
  case inr.inl.inl => -- HDR_ADOPTED
    exact .inl ⟨rfl, rfl, hu, rfl, rfl⟩
  case inr.inl.inr => -- HDR_UNUSABLE
    exact .inr ⟨rfl, .inl rfl⟩
  case inr.inr.inr.inr.inr => -- FRAME_DONE
    exact .inr ⟨rfl, .inr ⟨rfl, (u16_pred_eq_zero _).1 hlast⟩⟩
  all_goals exact absurd rfl hne

/-- Settles O48: reset awaits a header, and an instruction that changes `rsm_state` is one of `exec_rsm_changed`. -/
theorem onlyTheseEventsChangeRsmState : Obligations.OnlyTheseEventsChangeRsmState := by
  intro s t h
  rcases step_cases h with ⟨-, rfl⟩ | ⟨es, hp, rfl⟩ | ⟨tx, es, i, hp, -, hexec⟩
  · exact ⟨fun hs ht => (nomatch hs.symm.trans ht), fun hs ht => (nomatch hs.symm.trans ht)⟩
  · exact ⟨nofun, fun _ _ => .inl ⟨es, hp⟩⟩
  · constructor
    · intro hs ht
      rcases exec_rsm_changed hexec (by simp [hs, ht]) with ⟨-, hstart⟩ | ⟨haw, -⟩
      · exact hstart
      · exact nomatch haw.symm.trans ht
    · intro hs ht
      rcases exec_rsm_changed hexec (by simp [hs, ht]) with ⟨hcol, -⟩ | ⟨-, hend⟩
      · exact nomatch hcol.symm.trans ht
      · exact .inr hend

/-- Either nothing of an answer speaks of a completed frame, or the block was the last of a collection and the frame in BUF
is output (R17, R90). -/
theorem exec_frame_cases {i : Instr} {s t : State} (h : exec i s = .next t) :
    (t.out.frameValid ≠ some true ∧ t.out.frame = none ∧ t.out.disp ≠ some .frameDone) ∨
    (s.rsm = .collecting ∧ t.rsm = .awaitingHeader ∧ s.blocksRemaining.toNat = 1 ∧
      ∃ blk, t.out = acceptOutputs .frameDone false (some (completedFrame (storeBlock blk (blockBytes s) s)))) := by
  rcases stateless_or_accept i s with hi | ⟨n, d, hi⟩
  · obtain ⟨o, rfl, hframe, hdisp, hvalid⟩ := out_of_stateless hi h
    exact .inl ⟨by simp [hvalid], hframe, by simp [hdisp]⟩
  rw [hi] at h
  rcases acceptDatagram_cases h with ⟨-, rfl⟩ | ⟨-, -, ⟨-, rfl⟩ | ⟨-, rfl⟩⟩ | ⟨-, -, -, rfl⟩ |
    ⟨-, -, hr, ⟨-, rfl⟩ | ⟨blk, -, -, -, -, -, ⟨-, rfl⟩ | ⟨hlast, rfl⟩⟩⟩
  case inr.inr.inr.inr.inr => -- FRAME_DONE
    exact .inr ⟨hr, rfl, (u16_pred_eq_zero _).1 hlast, blk, rfl⟩
  all_goals exact .inl ⟨nofun, rfl, nofun⟩

/-- Settles O49 (`exec_frame_cases`): the frame in BUF has `hdr` and as many bytes as are read for it. -/
theorem frameIsReturnedOnlyByItsLastBlock : Obligations.FrameIsReturnedOnlyByItsLastBlock := by
  intro i s t h
  rcases exec_frame_cases h with ⟨hvalid, hframe, hdisp⟩ | ⟨hr, hr', hlast, blk, hout⟩
  · exact ⟨iff_of_false hvalid hdisp, iff_of_false (by simp [hframe]) hdisp, fun hdone => absurd hdone hdisp⟩
  · rw [hout]
    exact ⟨iff_of_true rfl rfl, iff_of_true rfl rfl,
      fun _ => ⟨hr, hr', hlast, _, rfl, rfl, Memory.readBytes_length _ _ _⟩⟩

end Sys2Proof.Machine
end

section
/-!
PROOFS. Bytes past the record on the header path, and past the due block on the payload path with no codec, take no part
(R31, R44, R46, R48).
-/
namespace Sys2Proof.Machine

section
variable {d e : Bytes} {s : State}

/-- What lies inside equal beginnings is equal. -/
theorem slice_eq_of_first_eq {k i j : Nat} (h : slice d 0 k = slice e 0 k) (hj : j ≤ k) : slice d i j = slice e i j := by
  have hinner (b : Bytes) : slice (slice b 0 k) i j = slice b i j := by
    rw [slice_slice b (by omega), Nat.zero_add, Nat.zero_add]
  rw [← hinner d, h, hinner e]

/-- The comparison looks at the record alone (R49). -/
theorem isHeaderBytes_eq_of_record_eq (ck : Bytes → U64) (h : slice d 0 42 = slice e 0 42) :
    isHeaderBytes ck d = isHeaderBytes ck e := by
  rw [isHeaderBytes, isHeaderBytes, slice_eq_of_first_eq h (by decide), slice_eq_of_first_eq (i := 34) h le_rfl]

/-- With no codec, collecting looks at the due block's bytes alone (R87, R89). -/
theorem collectBlock_eq_of_block_eq (hlen : d.length = e.length) (hc : codecOf s.hdr.toHeaderBody = 0)
    (h : slice d 0 (blockBytes s) = slice e 0 (blockBytes s)) : collectBlock d s = collectBlock e s := by
  have hstore : storeBlock d (blockBytes s) s = storeBlock e (blockBytes s) s := by rw [storeBlock, storeBlock, h]
  have hinv (x : Bytes) : inverseTransform s.params (codecOf s.hdr.toHeaderBody) x = some x := by
    rw [hc]
    exact inverseTransform_zero s.params x
  simp only [collectBlock, hinv, hlen, hstore]

theorem acceptDatagram_eq_of_record_eq (hlen : d.length = e.length) (h : slice d 0 42 = slice e 0 42)
    (hpay : isHeaderBytes s.params.ck.run d = false → payloadPath d s = payloadPath e s) :
    acceptDatagram d.length d s = acceptDatagram e.length e s := by
  have hcmp := isHeaderBytes_eq_of_record_eq s.params.ck.run h
  have hhead : headerPath d s = headerPath e s := by rw [headerPath, headerPath, h]
  rw [acceptDatagram, acceptDatagram, ← hlen, ← hcmp, hhead]
  cases hd : isHeaderBytes s.params.ck.run d with
  | true => rfl
  | false => rw [hpay hd]

end

/-- Settles O50: the header path sees the record alone, and the payload path with no codec the due block alone
(`acceptDatagram_eq_of_record_eq`, `collectBlock_eq_of_block_eq`). -/
theorem paddingIsNeverRead : Obligations.PaddingIsNeverRead := by
  intro i j d e s hi hj hlen hrec
  rw [exec_of_receives hi, exec_of_receives hj]
  constructor
  · intro hcmp
    exact acceptDatagram_eq_of_record_eq hlen hrec fun hno => absurd hcmp (Bool.eq_false_iff.1 hno)
  · intro hc hblk
    refine acceptDatagram_eq_of_record_eq hlen hrec fun _ => ?_
    rw [payloadPath, payloadPath, collectBlock_eq_of_block_eq hlen hc hblk]

end Sys2Proof.Machine
end

section
/-!
PROOFS. The ports: idle, reset, refusal and the decoded instruction (R35, R99, R113, R129), a delivery as an ACCEPT (R5), and
the readings of a payload datagram (R48, R49).
-/
namespace Sys2Proof.Machine

/-- A delivered datagram is accepted, whatever format it is read as (`step_datagram`, at the state that has it next). -/
theorem runTransaction_datagram {d : Bytes} (hl : d.length ≤ 65535) (s : State) :
    runTransaction (.datagram d) s = acceptDatagram d.length d s :=
  step_datagram (s := { s with port := .run (.datagram d) :: s.port }) rfl hl

/-- Presented as a command, ACCEPT is read back and run (R50, R78). -/
theorem runTransaction_encode_accept {len : U16} {d : Bytes} (hl : d.length = len.toNat) (s : State) :
    runTransaction (encode (.accept len d)) s = acceptDatagram d.length d s := by
  have hread := decodeInvertsEncode s.params.ck.run s.params.dsRx (remainderDue s) (.accept len d) (decide_eq_true hl) []
  rw [List.append_nil] at hread
  have hdec : s.decode (encode (.accept len d)) = .ok (.accept len d) := hread
  rw [runTransaction, hdec]
  exact exec_of_receives (.inl ⟨len, hl.symm, rfl⟩) s

/-- Settles O35: both accept the datagram. -/
theorem wireDeliveryIsAccept : Obligations.WireDeliveryIsAccept := by
  intro d s hl
  have hlen : d.length = (BitVec.ofNat 16 d.length).toNat := by
    rw [BitVec.toNat_ofNat]
    omega
  rw [runTransaction_datagram hl, runTransaction_encode_accept hlen]

/-- Settles O36: the readings by size are `decodeDatagram_of_size`, and the count is `remainderDue`. -/
theorem wireDecodingIsTheComparison : Obligations.WireDecodingIsTheComparison := by
  refine ⟨fun ck ds rem d hlen => ?_, fun s d hlen hcmp => ?_⟩
  · rw [decodeDatagram_of_size hlen, ne_eq, ← isHeaderBytes_iff]
    exact ⟨fun h => by rw [if_pos h], fun h => by rw [if_neg h]⟩
  · have hdue : remainderDue s = true ↔ s.rsm = .collecting ∧ s.hdr.completeBlockCount.toNat ≤ blockIndex s := by
      simp [remainderDue]
    rw [State.decode, decode, decodeDatagram_of_size hlen, if_neg (mt (isHeaderBytes_iff _ _).1 hcmp)]
    simp only [hdue]
    rfl

/-- A step with an input next is that input's, with the later ones next (R35). -/
theorem step_of_port {s : State} {e : PortEvent} {es : List PortEvent} (h : s.port = e :: es) :
    step s = runEvent e { s with port := es } := by
  rw [step, h]

/-- Settles O28: reset answers `applyReset`. -/
theorem resetInputAwaitsHeader : Obligations.ResetInputAwaitsHeader :=
  fun _ _ hp => ⟨_, step_of_port hp, rfl, rfl, rfl, rfl⟩

/-- Settles O29: the inputs still to come play no part in decoding. -/
theorem stepRunsDecodedInstruction : Obligations.StepRunsDecodedInstruction := by
  intro s tx es i hp hdec
  have hdec' : State.decode { s with port := es } tx = .ok i := hdec
  rw [step_of_port hp, runEvent, runTransaction, hdec']

/-- Settles O30: an empty port leaves the state, and a decoding error is the refusal. -/
theorem stepIdlesOrRefusesWithoutTransaction : Obligations.StepIdlesOrRefusesWithoutTransaction := by
  refine ⟨fun s hp => ?_, fun s tx es why hp hdec => ?_⟩
  · rw [step, hp]
  · have hdec' : State.decode { s with port := es } tx = .error why := hdec
    rw [step_of_port hp, runEvent, runTransaction, hdec']

/-- The code of a disposition tells which it is (R98). -/
theorem Disp.code_injective : Function.Injective Disp.code := by
  intro d e
  cases d <;> cases e <;> decide

/-- Settles O45: the codes are computed, and `rsm_state` has two values. -/
theorem statusCodes : Obligations.StatusCodes := by
  refine ⟨rfl, rfl, rfl, rfl, rfl, rfl, rfl, fun d => ?_, fun _ _ h => Disp.code_injective h, fun s => ?_, fun s => ?_⟩
  · cases d <;> decide
  · rw [State.rsmStatus]
    cases s.rsm <;> decide
  · rw [State.rsmStatus]
    cases s.rsm <;> decide

end Sys2Proof.Machine
end
